-- ==== Sys2Proof/Word.lean ====
section
/-! DEFINITION. The widths of the core: the 8-bit value every register, entry, instruction and address is, the
4-bit immediate, and the four register indices (spec/00_scope.md R5, R7; spec/10_state.md R11). -/

namespace Sys2Proof

/-- An 8-bit unsigned value: a register, a store entry, an instruction word, the PC, a port (R7). -/
abbrev Byte := BitVec 8

/-- The low half of an instruction word (`imm`, and `simm` before it is read as signed), and the opcode field (R5). -/
abbrev Nibble := BitVec 4

/-- A general register index. The field has two bits, so there are exactly these four and none is out of range (R11). -/
inductive Reg where
  | x0
  | x1
  | x2
  | x3
deriving DecidableEq, Repr

end Sys2Proof
end

