-- ==== Sys2Proof/Syntax.lean ====
section
/-! DEFINITION. The sixteen instructions, one constructor per row of spec/opcode_table.json
(spec/30_encoding.md R52, R54). Operands keep the order of the assembler syntax of R61. -/

namespace Sys2Proof

/-- An instruction. In the RR form the first operand is field `a`, the second field `b`.
BZ uses field `a` (the register it tests) and `simm` (its offset); the two share bits, and `Instr.WellFormed`
says so (R56). -/
inductive Instr where
  /-- Shift left (R90). -/
  | sl (a b : Reg)
  /-- Shift right, logical (R91). -/
  | sr (a b : Reg)
  /-- Bitwise complement of `b` into `a` (R92). -/
  | not (a b : Reg)
  /-- Bitwise and (R93). -/
  | and (a b : Reg)
  /-- Bitwise or (R94). -/
  | or (a b : Reg)
  /-- Bitwise exclusive or (R95). -/
  | xor (a b : Reg)
  /-- Addition modulo 256 (R96). -/
  | add (a b : Reg)
  /-- Set if less than, unsigned (R97). -/
  | slt (a b : Reg)
  /-- Load into `a` from the address in `b` (R100). -/
  | lw (a b : Reg)
  /-- Store `b` at the address in `a` (R101). -/
  | sw (a b : Reg)
  /-- Replace the low nibble of x0 (R110). -/
  | li (imm : Nibble)
  /-- Replace the high nibble of x0 (R111). -/
  | lui (imm : Nibble)
  /-- Jump to the address in `b`, link into `a` (R120). -/
  | jr (a b : Reg)
  /-- Branch by the signed offset if register `a` is NOT zero (R121). -/
  | bz (a : Reg) (simm : Nibble)
  /-- Jump forward (R122). -/
  | ji (imm : Nibble)
  /-- Jump backward (R123). -/
  | jir (imm : Nibble)
deriving DecidableEq, Repr

end Sys2Proof
end

