-- ==== Sys2Proof/Decode.lean ====
section
/-! DEFINITION. The instruction decoder (spec/30_encoding.md R50 to R60), and after it the encoder (R61). The
decoder is field extraction followed by the opcode map; the map is the spec's parameter OPCODE_MAP. -/

namespace Sys2Proof

/-- The operation an opcode value selects: the source's sixteen mnemonics, in its order (R54). -/
inductive Opcode where
  | sl | sr | not | and | or | xor | add | slt | lw | sw | li | lui | jr | bz | ji | jir
deriving DecidableEq, Repr

/-- Why a word is no instruction: its opcode value has no operation assigned (R58). The step then runs the default
instruction (R81); under the numbering of decision D1 no word is rejected (R59). -/
inductive Reject where
  | unassignedOpcode (opcode : Nibble)
deriving DecidableEq, Repr

/-- The register a 2-bit index names (R11). -/
def regOfBits (v : BitVec 2) : Reg :=
  match v.toNat with
  | 0 => .x0
  | 1 => .x1
  | 2 => .x2
  | _ => .x3

/-- The 2-bit index of a register (R11). -/
def regBits (r : Reg) : BitVec 2 :=
  match r with
  | .x0 => 0
  | .x1 => 1
  | .x2 => 2
  | .x3 => 3

/-- The `a` view of the four immediate bits: the register whose index is their top two bits (R51). It is the register
BZ tests: DEDUCED by the spec from the field positions (decision D10), unsafe; log entry 11 (R56). -/
def immReg (simm : Nibble) : Reg := regOfBits (simm.extractLsb' 2 2)

/-- The decoder output `opcode` = instr[7:4] (R51). -/
def opcodeField (w : Byte) : Nibble := w.extractLsb' 4 4

/-- The decoder output `a` = instr[3:2] (R51). -/
def aField (w : Byte) : Reg := regOfBits (w.extractLsb' 2 2)

/-- The decoder output `b` = instr[1:0] (R51). -/
def bField (w : Byte) : Reg := regOfBits (w.extractLsb' 0 2)

/-- The decoder output `imm` = instr[3:0]; `simm` is the same four bits, read as two's complement where BZ uses
them (R51, R53). -/
def immField (w : Byte) : Nibble := w.extractLsb' 0 4

/-- OPCODE_MAP: the value of an opcode is its row in the source's table, SL 0 to JIR 15. DEDUCED by the spec
(decision D1), unsafe; log entry 7 (R54). -/
def opcodeMap (v : Nibble) : Option Opcode :=
  match v.toNat with
  | 0 => some .sl
  | 1 => some .sr
  | 2 => some .not
  | 3 => some .and
  | 4 => some .or
  | 5 => some .xor
  | 6 => some .add
  | 7 => some .slt
  | 8 => some .lw
  | 9 => some .sw
  | 10 => some .li
  | 11 => some .lui
  | 12 => some .jr
  | 13 => some .bz
  | 14 => some .ji
  | 15 => some .jir
  | _ => none

/-- The fields an operation uses, by its form: RR, I or S (R52). -/
def operandsOf (op : Opcode) (w : Byte) : Instr :=
  match op with
  | .sl => .sl (aField w) (bField w)
  | .sr => .sr (aField w) (bField w)
  | .not => .not (aField w) (bField w)
  | .and => .and (aField w) (bField w)
  | .or => .or (aField w) (bField w)
  | .xor => .xor (aField w) (bField w)
  | .add => .add (aField w) (bField w)
  | .slt => .slt (aField w) (bField w)
  | .lw => .lw (aField w) (bField w)
  | .sw => .sw (aField w) (bField w)
  | .li => .li (immField w)
  | .lui => .lui (immField w)
  | .jr => .jr (aField w) (bField w)
  | .bz => .bz (aField w) (immField w)
  | .ji => .ji (immField w)
  | .jir => .jir (immField w)

/-- The decoder under any opcode map: total, rejecting by name an opcode value with no case (R51, R58). -/
def decodeWith (map : Nibble → Option Opcode) (w : Byte) : Except Reject Instr :=
  match map (opcodeField w) with
  | some op => .ok (operandsOf op w)
  | none => .error (.unassignedOpcode (opcodeField w))

/-- The decoder of this hardware: the opcode map of R54. -/
def decode (w : Byte) : Except Reject Instr := decodeWith opcodeMap w

/-- The instruction in a word of `nbits` bits. Every instruction is exactly 8 bits (R50), so nothing else is one. -/
def decodeTableWord (nbits w : Nat) : Option Instr :=
  if nbits = 8 ∧ w < 256 then
    match decode (BitVec.ofNat 8 w) with
    | .ok i => some i
    | .error _ => none
  else none

/-- The opcode value of an operation, the first column of the opcode map (R54, D1; log entry 7). -/
def opcodeValue (op : Opcode) : Nibble :=
  match op with
  | .sl => 0
  | .sr => 1
  | .not => 2
  | .and => 3
  | .or => 4
  | .xor => 5
  | .add => 6
  | .slt => 7
  | .lw => 8
  | .sw => 9
  | .li => 10
  | .lui => 11
  | .jr => 12
  | .bz => 13
  | .ji => 14
  | .jir => 15

/-- A word of the RR form: opcode, a, b (R52, R61). -/
def encodeRegs (op : Opcode) (a b : Reg) : Byte := opcodeValue op ++ (regBits a ++ regBits b)

/-- A word of the I or S form: opcode and four immediate bits (R52, R61). -/
def encodeImm (op : Opcode) (n : Nibble) : Byte := opcodeValue op ++ n

/-- The word of an instruction (R61). BZ is written from its offset alone: its register is part of it (R56). -/
def encode (i : Instr) : Byte :=
  match i with
  | .sl a b => encodeRegs .sl a b
  | .sr a b => encodeRegs .sr a b
  | .not a b => encodeRegs .not a b
  | .and a b => encodeRegs .and a b
  | .or a b => encodeRegs .or a b
  | .xor a b => encodeRegs .xor a b
  | .add a b => encodeRegs .add a b
  | .slt a b => encodeRegs .slt a b
  | .lw a b => encodeRegs .lw a b
  | .sw a b => encodeRegs .sw a b
  | .li n => encodeImm .li n
  | .lui n => encodeImm .lui n
  | .jr a b => encodeRegs .jr a b
  | .bz _ s => encodeImm .bz s
  | .ji n => encodeImm .ji n
  | .jir n => encodeImm .jir n

end Sys2Proof
end

