-- ==== Sys2Proof/Config.lean ====
section
/-! DEFINITION. What is fixed for one machine and what the spec leaves free: the store sizes, the reset
parameters at the spec's defaults, and the input port (spec/00_scope.md R5). -/

namespace Sys2Proof

/-- IMEM_SIZE: the instruction store has 256 entries (R5). -/
def Config.imemSize : Nat := 256

/-- DMEM_SIZE: the data store has 256 entries (R5). -/
def Config.dmemSize : Nat := 256

/-- RESET_PC, decided by the spec (R23, D2). DEDUCED by the spec from the reference program's placement; log entry 6. -/
def Config.resetPc : Byte := 0

/-- INIT_X at the spec's default. DESIGN CHOICE, unsafe: the spec leaves it OPEN (R23, D2); log entry 3. -/
def Config.initX : Byte := 0

/-- INIT_LEDS at the spec's default. DESIGN CHOICE, unsafe: the spec leaves it OPEN (R23, D2); log entry 5. -/
def Config.initLeds : Byte := 0

/-- BUTTONS: the input-port value in the cycle of that number, where the state fixes none. It has no body, so a
claim holds whatever the environment presents (R21, D7, U8). Safe; log entry 1. -/
opaque Config.freeInput : Nat → Byte

end Sys2Proof
end

