-- ==== Sys2Proof/Machine/State.lean ====
section
/-! DEFINITION. The state of the core as plain data, its stops (none is ever raised), and the state after reset
(spec/10_state.md). -/

namespace Sys2Proof.Machine

/-- A store of bytes: (address, byte) pairs in one canonical form, addresses strictly rising below 256 and no byte
equal to what an unlisted address reads as (`Memory.wf`, Ops.lean). -/
abbrev Memory := List Host.Cell

/-- The state. The spec's tuple is (PC, x[0..3], DMEM[0..255], LEDS) (R10). The instruction store and the input
stream, which the spec passes to its step as arguments, stand here too (log entries 10, 1, 2). -/
structure State where
  /-- The program counter (R15). -/
  pc : Byte
  /-- General register x[0] (R11). -/
  x0 : Byte
  /-- General register x[1] (R11). -/
  x1 : Byte
  /-- General register x[2] (R11). -/
  x2 : Byte
  /-- General register x[3] (R11). -/
  x3 : Byte
  /-- The data store DMEM (R19). Entry 255 is kept and never read or written (D4; log entry 9). -/
  dmem : Memory
  /-- The output latch LEDS (R20). -/
  leds : Byte
  /-- The instruction store IMEM, constant in a run (R18; log entry 10). -/
  imem : Memory
  /-- The model's own: input-port values already fixed, this cycle's first. Past its end the input is free (R21;
  log entry 1). -/
  inputs : List Byte
  /-- The model's own: how many cycles have ended. It only selects the free input value of a cycle (U8; log entry 2). -/
  cycle : Nat
deriving DecidableEq, Repr

/-- No instruction, with any operands, in any state, raises an exception (R130): there is no fault to name. -/
inductive Fault where
deriving DecidableEq, Repr

/-- Why a step has no meaning. Every instruction has one, so no step refuses. -/
inductive Refusal where
  /-- An arm of `exec` without a meaning yet. Raised by no arm of this model; it would be safe. -/
  | notModelled (mnemonic : String)
deriving DecidableEq, Repr

/-- The state after reset (R23, R151): PC at RESET_PC; registers, data store and latch at the spec's OPEN parameters'
defaults (DESIGN CHOICE, unsafe; log entries 3, 4, 5); an empty PROGRAM, so every instruction-store entry is 0 (R150). -/
def State.reset : State where
  pc := Config.resetPc
  x0 := Config.initX
  x1 := Config.initX
  x2 := Config.initX
  x3 := Config.initX
  dmem := []
  leds := Config.initLeds
  imem := []
  inputs := []
  cycle := 0

end Sys2Proof.Machine
end

