-- ==== Sys2Proof/Machine/Ops.lean ====
section
/-! DEFINITION. The named operations every meaning shares: the stores, the register file's ports, the data bus with
its I/O port, the signals of a cycle with their defaults, the commit, fetch, and the end of a cycle. The core takes no
exception and returns from none (spec/60_exceptions.md R130, R133, R134), so there is no operation for either. -/

namespace Sys2Proof.Machine

/-- What an address with no entry reads as. For the instruction store: "unspecified addresses default to 0" (R150).
For the data store: INIT_DMEM at the spec's default, DESIGN CHOICE, unsafe; log entry 4 (R23). -/
def Memory.blank : Byte := 0

/-- The byte of a store at an address. -/
def Memory.read (m : Memory) (k : Nat) : Byte :=
  match m with
  | [] => Memory.blank
  | (j, b) :: rest => if j = k then b else Memory.read rest k

/-- The store without any entry at `k`. -/
def Memory.erase (m : Memory) (k : Nat) : Memory :=
  match m with
  | [] => []
  | (j, b) :: rest => if j = k then Memory.erase rest k else (j, b) :: Memory.erase rest k

/-- The store with an entry put in before the first higher address. -/
def Memory.place (m : Memory) (k : Nat) (v : Byte) : Memory :=
  match m with
  | [] => [(k, v)]
  | (j, b) :: rest => if k < j then (k, v) :: (j, b) :: rest else (j, b) :: Memory.place rest k v

/-- The store with `v` at `k`; writing the blank value leaves no entry. -/
def Memory.write (m : Memory) (k : Nat) (v : Byte) : Memory :=
  if v = Memory.blank then Memory.erase m k else Memory.place (Memory.erase m k) k v

/-- Canonical from address `lo` on: strictly rising, below 256, no blank byte. -/
def Memory.wfFrom (lo : Nat) (m : Memory) : Bool :=
  match m with
  | [] => true
  | (k, b) :: rest =>
    decide (lo ≤ k) && decide (k < Config.dmemSize) && decide (b ≠ Memory.blank) && Memory.wfFrom (k + 1) rest

/-- The canonical form of a store: equal stores are equal lists. -/
def Memory.wf (m : Memory) : Bool := Memory.wfFrom 0 m

/-- A read port of the register file: the pre-cycle value of the register (R12). -/
def readReg (r : Reg) (s : State) : Byte :=
  match r with
  | .x0 => s.x0
  | .x1 => s.x1
  | .x2 => s.x2
  | .x3 => s.x3

/-- The write port of the register file (R13). No register is hard-wired (R11). -/
def writeReg (r : Reg) (v : Byte) (s : State) : State :=
  match r with
  | .x0 => { s with x0 := v }
  | .x1 => { s with x1 := v }
  | .x2 => { s with x2 := v }
  | .x3 => { s with x3 := v }

/-- The PC takes its next value (R15). -/
def setPc (v : Byte) (s : State) : State := { s with pc := v }

/-- The output latch takes a value (R20). -/
def setLeds (v : Byte) (s : State) : State := { s with leds := v }

/-- The data store takes new contents (R19). -/
def setDmem (m : Memory) (s : State) : State := { s with dmem := m }

/-- The instruction store takes new contents: construction only, never an instruction (R18). -/
def setImem (m : Memory) (s : State) : State := { s with imem := m }

/-- IO_ADDR: the data address of the I/O port (R5). -/
def ioAddr : Byte := 255

/-- The input-port value of this cycle: the first of the values already fixed, else a free one (R21, R155; log
entry 1). -/
def buttons (s : State) : Byte :=
  match s.inputs with
  | v :: _ => v
  | [] => Config.freeInput s.cycle

/-- MemRead(addr, 1): the input port at 255, the data store elsewhere; no side effect (R31). -/
def memRead (addr : Byte) (s : State) : Byte :=
  if addr = ioAddr then buttons s else Memory.read s.dmem addr.toNat

/-- MemWrite(addr, 1, v): the latch at 255, the data store elsewhere (R32). That 255 does not also reach DMEM[255] is
the spec's decision D4; it cannot be observed (log entry 9). -/
def memWrite (addr v : Byte) (s : State) : State :=
  if addr = ioAddr then setLeds v s else setDmem (Memory.write s.dmem addr.toNat v) s

/-- What the execute logic drives in a cycle (R73, R82). -/
structure Signals where
  /-- The write-back value `wd`. -/
  wd : Byte
  /-- The register write-enable `we`. -/
  we : Bool
  /-- The register write index `wa`. -/
  wa : Reg
  /-- The next-PC value `next_pc`. -/
  nextPc : Byte
  /-- The data-write strobe `data_write`. -/
  dataWrite : Bool
  /-- The data address bus `data_address`. -/
  dataAddress : Byte
  /-- The data output bus `data_out`. -/
  dataOut : Byte
deriving DecidableEq, Repr

/-- The incrementer's output, the address after the executing instruction, modulo 256 (R15, R78). -/
def pcPlusOne (s : State) : Byte := s.pc + 1

/-- The defaults every opcode starts from, for the effective `a` index (R73). The two idle bus values are the spec's
decision D5 and influence no state (U7; log entry 12). -/
def defaults (a : Reg) (s : State) : Signals where
  wd := 0
  we := true
  wa := a
  nextPc := pcPlusOne s
  dataWrite := false
  dataAddress := 0
  dataOut := 0

/-- The register file at the cycle boundary (R13, R75). -/
def commitReg (c : Signals) (s : State) : State := if c.we then writeReg c.wa c.wd s else s

/-- The data bus at the cycle boundary (R75, R80). -/
def commitData (c : Signals) (s : State) : State := if c.dataWrite then memWrite c.dataAddress c.dataOut s else s

/-- The commit: every synchronous element takes its new value from the signals, all at once (R75). -/
def commit (c : Signals) (s : State) : State := setPc c.nextPc (commitData c (commitReg c s))

/-- An instruction completes: its signals are committed. No instruction ends otherwise (R70, R130). -/
def complete (c : Signals) (s : State) : Host.Outcome State Fault Refusal := .next (commit c s)

/-- Fetch: the instruction-store entry at the PC (R71). -/
def fetch (s : State) : Byte := Memory.read s.imem s.pc.toNat

/-- The cycle is over for the environment: the next cycle has an input value of its own (R21, R155; log entries 1, 2). -/
def endCycle (s : State) : State := { s with inputs := s.inputs.tail, cycle := s.cycle + 1 }

/-- `endCycle` on the outcome of an instruction. -/
def closeCycle (o : Host.Outcome State Fault Refusal) : Host.Outcome State Fault Refusal :=
  match o with
  | .next t => .next (endCycle t)
  | .fault r => .fault r
  | .refused r => .refused r

end Sys2Proof.Machine
end

