-- ==== Sys2Proof/Machine/Operands.lean ====
section
/-! DEFINITION. The operand forms: registers (readReg, Ops.lean), the unsigned and the signed immediate, the nibble
merges of LI and LUI, and the sources of the next-PC multiplexer (spec/30_encoding.md R53; spec/40_cycle.md R78). -/

namespace Sys2Proof.Machine

/-- The register LI and LUI read and write whatever the instruction's `a` bits are (R55). -/
def constantReg : Reg := .x0

/-- `imm` widened by zeros (R53). -/
def immValue (imm : Nibble) : Byte := imm.setWidth 8

/-- `simm`: the four bits as two's complement, widened to 8 bits (R53). -/
def simmValue (simm : Nibble) : Byte := simm.signExtend 8

/-- LI's write-back value: high nibble kept, low nibble replaced (R110). -/
def mergeLow (ar : Byte) (imm : Nibble) : Byte := (ar &&& 0xF0) ||| immValue imm

/-- LUI's write-back value: low nibble kept, high nibble replaced (R111). -/
def mergeHigh (ar : Byte) (imm : Nibble) : Byte := (ar &&& 0x0F) ||| (immValue imm <<< 4)

/-- BZ's target when taken: relative to the address after it (R121). -/
def branchTarget (simm : Nibble) (s : State) : Byte := pcPlusOne s + simmValue simm

/-- JI's target: forward from the address after it (R122). -/
def forwardTarget (imm : Nibble) (s : State) : Byte := pcPlusOne s + immValue imm

/-- JIR's target: backward, measured from its own address (R123). -/
def backwardTarget (imm : Nibble) (s : State) : Byte := s.pc - 1 - immValue imm

end Sys2Proof.Machine
end

