-- ==== Sys2Proof/Machine/Flags.lean ====
section
/-! DEFINITION. The core has no flags and no instruction has a flag side effect (spec/10_state.md R16). What other
machines take from flags is computed from register values: SLT's comparison and BZ's condition. -/

namespace Sys2Proof.Machine

/-- SLT's result: 1 if the first operand is less, both unsigned, else 0 (R97). -/
def lessUnsigned (ar br : Byte) : Byte := if ar.toNat < br.toNat then 1 else 0

/-- BZ's condition: the tested register is NOT zero (R121, U5). -/
def branchTaken (ar : Byte) : Bool := decide (ar ≠ 0)

end Sys2Proof.Machine
end

