-- ==== Sys2Proof/Machine/Alu.lean ====
section
/-! DEFINITION. The eight register-register ALU instructions (spec/41_alu.md R90 to R99). Each overrides `wd` alone. -/

namespace Sys2Proof.Machine

/-- The ALU's left shift: the whole of `br` is the amount, so 8 or more gives 0. DEDUCED by the spec from the formula
(decision D3), unsafe; log entry 8 (R90). -/
def aluSl (ar br : Byte) : Byte := ar <<< br.toNat

/-- The ALU's right shift: logical, the whole of `br` the amount (decision D3; log entry 8) (R91). -/
def aluSr (ar br : Byte) : Byte := ar >>> br.toNat

/-- The override set the eight share: `wd` is the ALU's result on the two read ports (R73, R77). -/
def aluSignals (f : Byte → Byte → Byte) (a b : Reg) (s : State) : Signals :=
  { defaults a s with wd := f (readReg a s) (readReg b s) }

/-- SL: shift left (R90). -/
def execSl (a b : Reg) (s : State) : Host.Outcome State Fault Refusal :=
  complete (aluSignals aluSl a b s) s

/-- SR: shift right (R91). -/
def execSr (a b : Reg) (s : State) : Host.Outcome State Fault Refusal :=
  complete (aluSignals aluSr a b s) s

/-- NOT: bitwise complement of register `b`; `ar` is read and ignored (R92). -/
def execNot (a b : Reg) (s : State) : Host.Outcome State Fault Refusal :=
  complete (aluSignals (fun _ br => ~~~br) a b s) s

/-- AND: bitwise and (R93). -/
def execAnd (a b : Reg) (s : State) : Host.Outcome State Fault Refusal :=
  complete (aluSignals (fun ar br => ar &&& br) a b s) s

/-- OR: bitwise or (R94). -/
def execOr (a b : Reg) (s : State) : Host.Outcome State Fault Refusal :=
  complete (aluSignals (fun ar br => ar ||| br) a b s) s

/-- XOR: bitwise exclusive or (R95). -/
def execXor (a b : Reg) (s : State) : Host.Outcome State Fault Refusal :=
  complete (aluSignals (fun ar br => ar ^^^ br) a b s) s

/-- ADD: addition modulo 256, the carry recorded nowhere (R96). -/
def execAdd (a b : Reg) (s : State) : Host.Outcome State Fault Refusal :=
  complete (aluSignals (fun ar br => ar + br) a b s) s

/-- SLT: set if less than, unsigned (R97). -/
def execSlt (a b : Reg) (s : State) : Host.Outcome State Fault Refusal :=
  complete (aluSignals lessUnsigned a b s) s

end Sys2Proof.Machine
end

