-- ==== Sys2Proof/Machine/Control.lean ====
section
/-! DEFINITION. The four control transfers (spec/44_control.md R120 to R126) and the default instruction of an opcode value with no case (spec/40_cycle.md R81). -/

namespace Sys2Proof.Machine

/-- JR: register `a` takes the link value, the PC the old value of register `b` (R120). -/
def execJr (a b : Reg) (s : State) : Host.Outcome State Fault Refusal :=
  complete { defaults a s with wd := pcPlusOne s, nextPc := readReg b s } s

/-- BZ: taken when register `a` is NOT zero; no register is written (R121). The decoder hands over as `a` the top two
bits of the offset field (R56). -/
def execBz (a : Reg) (simm : Nibble) (s : State) : Host.Outcome State Fault Refusal :=
  complete
    { defaults a s with
      we := false, nextPc := if branchTaken (readReg a s) then branchTarget simm s else pcPlusOne s } s

/-- JI: forward; no register is written, so the index at the idle write port is immaterial (R122, R57). -/
def execJi (imm : Nibble) (s : State) : Host.Outcome State Fault Refusal :=
  complete { defaults (immReg imm) s with we := false, nextPc := forwardTarget imm s } s

/-- JIR: backward; no register is written (R123). -/
def execJir (imm : Nibble) (s : State) : Host.Outcome State Fault Refusal :=
  complete { defaults (immReg imm) s with we := false, nextPc := backwardTarget imm s } s

/-- The default instruction: every signal at its default, so register `a` takes 0 (R81, R58). `a` is the plain field.
No byte reaches it under the numbering of decision D1. -/
def execUnassigned (a : Reg) (s : State) : Host.Outcome State Fault Refusal :=
  complete (defaults a s) s

end Sys2Proof.Machine
end

