-- ==== Sys2Proof/Machine/Immediate.lean ====
section
/-! DEFINITION. The two immediate instructions; both read and write x0 (spec/43_immediate.md R110 to R112; spec/30_encoding.md R55). -/

namespace Sys2Proof.Machine

/-- LI: the low nibble of x0 is replaced (R110). -/
def execLi (imm : Nibble) (s : State) : Host.Outcome State Fault Refusal :=
  complete { defaults constantReg s with wd := mergeLow (readReg constantReg s) imm } s

/-- LUI: the high nibble of x0 is replaced (R111). -/
def execLui (imm : Nibble) (s : State) : Host.Outcome State Fault Refusal :=
  complete { defaults constantReg s with wd := mergeHigh (readReg constantReg s) imm } s

end Sys2Proof.Machine
end

