-- ==== Sys2Proof/Machine/LoadStore.lean ====
section
/-! DEFINITION. The two instructions that reach the data space (spec/42_loadstore.md R100 to R102). -/

namespace Sys2Proof.Machine

/-- LW: register `a` takes what the data bus returns for the address in register `b` (R100). -/
def execLw (a b : Reg) (s : State) : Host.Outcome State Fault Refusal :=
  complete { defaults a s with dataAddress := readReg b s, wd := memRead (readReg b s) s } s

/-- SW: register `b` goes to the address in register `a`; no register is written (R101). -/
def execSw (a b : Reg) (s : State) : Host.Outcome State Fault Refusal :=
  complete
    { defaults a s with
      we := false, dataAddress := readReg a s, dataOut := readReg b s, dataWrite := true } s

end Sys2Proof.Machine
end

