-- ==== Sys2Proof/Machine/Dispatch.lean ====
section
/-! DEFINITION. One arm per instruction, each one direct call of its meaning (spec/40_cycle.md R74). -/

namespace Sys2Proof.Machine

def exec (i : Instr) (s : State) : Host.Outcome State Fault Refusal :=
  match i with
  | .sl a b => Sys2Proof.Machine.execSl a b s
  | .sr a b => Sys2Proof.Machine.execSr a b s
  | .not a b => Sys2Proof.Machine.execNot a b s
  | .and a b => Sys2Proof.Machine.execAnd a b s
  | .or a b => Sys2Proof.Machine.execOr a b s
  | .xor a b => Sys2Proof.Machine.execXor a b s
  | .add a b => Sys2Proof.Machine.execAdd a b s
  | .slt a b => Sys2Proof.Machine.execSlt a b s
  | .lw a b => Sys2Proof.Machine.execLw a b s
  | .sw a b => Sys2Proof.Machine.execSw a b s
  | .li imm => Sys2Proof.Machine.execLi imm s
  | .lui imm => Sys2Proof.Machine.execLui imm s
  | .jr a b => Sys2Proof.Machine.execJr a b s
  | .bz a simm => Sys2Proof.Machine.execBz a simm s
  | .ji imm => Sys2Proof.Machine.execJi imm s
  | .jir imm => Sys2Proof.Machine.execJir imm s

end Sys2Proof.Machine
end

