-- ==== Sys2Proof/Machine/Cycle.lean ====
section
/-! DEFINITION. One cycle: fetch, decode, execute, commit (spec/40_cycle.md R70 to R75), for any opcode map. -/

namespace Sys2Proof.Machine

/-- A decoded word is executed; a word whose opcode value has no case runs the default instruction on the word's
plain `a` field (R70, R74, R81). -/
def executeWord (w : Byte) (d : Except Reject Instr) (s : State) : Host.Outcome State Fault Refusal :=
  match d with
  | .ok i => exec i s
  | .error (.unassignedOpcode _) => execUnassigned (aField w) s

/-- One cycle under an opcode map (R70 to R75; the map as a parameter is the alternative of decision D1). -/
def cycleWith (map : Nibble → Option Opcode) (s : State) : Host.Outcome State Fault Refusal :=
  closeCycle (executeWord (fetch s) (decodeWith map (fetch s)) s)

/-- Storing the word where the next cycle fetches. -/
def placeWord (w : Byte) (s : State) : State := setImem (Memory.write s.imem s.pc.toNat w) s

end Sys2Proof.Machine
end

