-- ==== Sys2Proof/Machine/Step.lean ====
section
/-! DEFINITION. The step of this hardware, and placing an instruction where it fetches next. -/

namespace Sys2Proof.Machine

/-- Advance one cycle (spec/40_cycle.md R70), under the opcode map of R54. -/
def step (s : State) : Host.Outcome State Fault Refusal := cycleWith opcodeMap s

/-- `s` with the instruction whose bits are `w` in the entry at the PC. An instruction is one entry of 8 bits (R50), so
no bit above 7 is kept. -/
def State.withFetchWord (s : State) (nbits w : Nat) : State := placeWord (BitVec.ofNat 8 (w % 2 ^ nbits)) s

end Sys2Proof.Machine
end

