-- ==== Sys2Proof/Machine/Datapath.lean ====
section
/-! DEFINITION. The core a second time, as the spec draws it in components over plain numbers: the ALU (R77), the
next-PC multiplexer (R78), the write-back multiplexer (R79), and the whole step in one place (R76) of
spec/40_cycle.md. It shares neither decoder, operand forms nor meanings with `step`; that the two agree is an
obligation. -/

namespace Sys2Proof.Machine

/-- The ALU: two operands, selected by opcode value (R77, R90 to R97). -/
def aluResult (opcode ar br : Nat) : Nat :=
  match opcode with
  | 0 => (ar * 2 ^ br) % 256
  | 1 => ar / 2 ^ br
  | 2 => 255 - br
  | 3 => ar &&& br
  | 4 => ar ||| br
  | 5 => ar ^^^ br
  | 6 => (ar + br) % 256
  | 7 => if ar < br then 1 else 0
  | _ => 0

/-- The five sources of the next-PC multiplexer (R78). -/
inductive NextPcSource where
  | increment | registerB | branch | forward | backward
deriving DecidableEq, Repr

/-- The next-PC select, with BZ's condition (R78). -/
def nextPcSelect (opcode ar : Nat) : NextPcSource :=
  match opcode with
  | 12 => .registerB
  | 13 => if ar ≠ 0 then .branch else .increment
  | 14 => .forward
  | 15 => .backward
  | _ => .increment

/-- The next-PC multiplexer, every source modulo 256 (R78). -/
def nextPcMux (sel : NextPcSource) (pc br imm : Nat) (simm : Int) : Nat :=
  match sel with
  | .increment => (pc + 1) % 256
  | .registerB => br
  | .branch => (((pc : Int) + 1 + simm) % 256).toNat
  | .forward => (pc + 1 + imm) % 256
  | .backward => (((pc : Int) - 1 - imm) % 256).toNat

/-- The five sources of the write-back multiplexer; LI and LUI have a merge each (R79). -/
inductive WriteBackSource where
  | zero | alu | dataIn | mergeLow | mergeHigh | link
deriving DecidableEq, Repr

/-- The write-back select (R79). -/
def writeBackSelect (opcode : Nat) : WriteBackSource :=
  match opcode with
  | 0 | 1 | 2 | 3 | 4 | 5 | 6 | 7 => .alu
  | 8 => .dataIn
  | 10 => .mergeLow
  | 11 => .mergeHigh
  | 12 => .link
  | _ => .zero

/-- The write-back multiplexer (R79). -/
def writeBackMux (sel : WriteBackSource) (opcode pc ar br imm dataIn : Nat) : Nat :=
  match sel with
  | .zero => 0
  | .alu => aluResult opcode ar br
  | .dataIn => dataIn
  | .mergeLow => (ar &&& 0xF0) ||| imm
  | .mergeHigh => (ar &&& 0x0F) ||| (imm <<< 4)
  | .link => (pc + 1) % 256

/-- The register write-enable: not asserted by SW, BZ, JI and JIR (R79). -/
def writeEnable (opcode : Nat) : Bool :=
  match opcode with
  | 9 | 13 | 14 | 15 => false
  | _ => true

/-- A register by its index (R11). -/
def regAt (n : Nat) (s : State) : Nat :=
  match n with
  | 0 => s.x0.toNat
  | 1 => s.x1.toNat
  | 2 => s.x2.toNat
  | _ => s.x3.toNat

/-- The register file after a write of `v` at index `n`. -/
def putRegAt (n v : Nat) (s : State) : State :=
  match n with
  | 0 => { s with x0 := BitVec.ofNat 8 v }
  | 1 => { s with x1 := BitVec.ofNat 8 v }
  | 2 => { s with x2 := BitVec.ofNat 8 v }
  | _ => { s with x3 := BitVec.ofNat 8 v }

/-- The data bus's answer (R31, R80). -/
def busRead (addr : Nat) (s : State) : Nat :=
  if addr = 255 then (buttons s).toNat else (Memory.read s.dmem addr).toNat

/-- The data bus's write at the cycle boundary (R32, R80). -/
def busWrite (addr v : Nat) (s : State) : State :=
  if addr = 255 then { s with leds := BitVec.ofNat 8 v }
  else { s with dmem := Memory.write s.dmem addr (BitVec.ofNat 8 v) }

/-- The whole step in one place (R76), on the number the instruction word is. -/
def datapathStep (s : State) : State :=
  let pc := s.pc.toNat
  let instr := (Memory.read s.imem pc).toNat
  let opcode := instr / 16
  let a := instr / 4 % 4
  let b := instr % 4
  let imm := instr % 16
  let simm : Int := if imm < 8 then imm else (imm : Int) - 16
  let aEff := if opcode = 10 ∨ opcode = 11 then 0 else a
  let ar := regAt aEff s
  let br := regAt b s
  let wd := writeBackMux (writeBackSelect opcode) opcode pc ar br imm (busRead br s)
  let nextPc := nextPcMux (nextPcSelect opcode ar) pc br imm simm
  let s1 := if writeEnable opcode then putRegAt aEff wd s else s
  let s2 := if opcode = 9 then busWrite ar br s1 else s1
  { s2 with pc := BitVec.ofNat 8 nextPc }

end Sys2Proof.Machine
end

