-- ==== Sys2Proof/Machine/Environment.lean ====
section
/-! DEFINITION. What the embedding environment can do besides stepping: construct the machine from a program, reset it,
supply the input-port value of a cycle (spec/70_reset_and_hazards.md R150, R151, R158). -/

namespace Sys2Proof.Machine

/-- The reset parameters the spec leaves OPEN, at its defaults unless given (R5, R23, D2). -/
structure ResetParams where
  /-- INIT_X, entry 0. -/
  initX0 : Byte := Config.initX
  /-- INIT_X, entry 1. -/
  initX1 : Byte := Config.initX
  /-- INIT_X, entry 2. -/
  initX2 : Byte := Config.initX
  /-- INIT_X, entry 3. -/
  initX3 : Byte := Config.initX
  /-- INIT_DMEM in address order; entries past the list's end are 0. -/
  initDmem : List Byte := []
  /-- INIT_LEDS. -/
  initLeds : Byte := Config.initLeds
deriving DecidableEq, Repr

/-- The one reportable condition: a configuration error, signalled at setup and never by a running core (R143). That it
is a value of this type is the model's choice (N17; log entry 14). -/
inductive ConstructionError where
  /-- The program has more than the instruction store's 256 entries (R143). -/
  | programTooLong
  /-- A program entry is outside 0..255 (R150). -/
  | entryNotByte
deriving DecidableEq, Repr

/-- Bytes laid into a store from an address on, in canonical form. -/
def loadFrom (k : Nat) (bytes : List Byte) : Memory :=
  match bytes with
  | [] => []
  | v :: rest => if v = Memory.blank then loadFrom (k + 1) rest else (k, v) :: loadFrom (k + 1) rest

/-- The state after reset for an instruction store and given parameters (R23, R151). -/
def resetState (imem : Memory) (p : ResetParams) : State where
  pc := Config.resetPc
  x0 := p.initX0
  x1 := p.initX1
  x2 := p.initX2
  x3 := p.initX3
  dmem := loadFrom 0 (p.initDmem.take Config.dmemSize)
  leds := p.initLeds
  imem := imem
  inputs := []
  cycle := 0

/-- Construction: the program is loaded verbatim from address 0, the rest of the instruction store is 0; a program that
is too long, or an entry that is no byte, is refused (R150, R143). -/
def construct (program : List Nat) (p : ResetParams) : Except ConstructionError State :=
  if Config.imemSize < program.length then .error .programTooLong
  else if program.any (fun v => decide (256 ≤ v)) then .error .entryNotByte
  else .ok (resetState (loadFrom 0 (program.map (BitVec.ofNat 8))) p)

/-- A reset in mid-run: a new run from the reset state with the same instruction store, under reset parameters of its
own. The environment's input stream goes on. DEDUCED by the spec (decision D12); log entry 13 (R151). -/
def restart (p : ResetParams) (s : State) : State :=
  { resetState s.imem p with inputs := s.inputs, cycle := s.cycle }

/-- The environment supplies the input-port value of this cycle (R158); the values of later cycles stay as they are. -/
def supplyInput (v : Byte) (s : State) : State := { s with inputs := v :: s.inputs.tail }

end Sys2Proof.Machine
end

