-- ==== Sys2Proof/WellFormed.lean ====
section
/-! DEFINITION. Which terms of `Instr` are instructions: every one, but a BZ whose register is not the one its
offset names (spec/30_encoding.md R56, R59, R61). -/

namespace Sys2Proof

/-- The syntax check. Operand ranges hold by type (R61: A, B in 0..3, n in 0..15, s in -8..+7); what is left is that
BZ's register and offset agree (R56). -/
def Instr.WellFormed (i : Instr) : Bool :=
  match i with
  | .bz a s => decide (a = immReg s)
  | .sl _ _ | .sr _ _ | .not _ _ | .and _ _ | .or _ _ | .xor _ _ | .add _ _ | .slt _ _ => true
  | .lw _ _ | .sw _ _ | .jr _ _ => true
  | .li _ | .lui _ | .ji _ | .jir _ => true

end Sys2Proof
end

