-- ==== Sys2Proof/Safety.lean ====
section
/-! DEFINITION. The terms claims are stated in: the state tuple of the spec, the invariant, what an instruction leaves
alone, runs and their end. -/

namespace Sys2Proof.Machine

/-- The spec's state tuple (R10): what two runs are compared by, less the program and the input stream. -/
structure Tuple where
  pc : Byte
  x0 : Byte
  x1 : Byte
  x2 : Byte
  x3 : Byte
  dmem : Memory
  leds : Byte
deriving DecidableEq, Repr

/-- The state tuple of a state (R10). -/
def State.tuple (s : State) : Tuple where
  pc := s.pc
  x0 := s.x0
  x1 := s.x1
  x2 := s.x2
  x3 := s.x3
  dmem := s.dmem
  leds := s.leds

/-- Both stores are in canonical form: no address outside 0..255, none twice. -/
abbrev State.Inv (s : State) : Prop := Memory.wf s.dmem = true ∧ Memory.wf s.imem = true

/-- Everything that no register write and no PC change touches is the same: every byte of both stores, the latch, the
input stream, the cycle count. -/
def SameElsewhere (s t : State) : Prop :=
  (∀ k, Memory.read t.dmem k = Memory.read s.dmem k) ∧ t.leds = s.leds ∧
    (∀ k, Memory.read t.imem k = Memory.read s.imem k) ∧ t.inputs = s.inputs ∧ t.cycle = s.cycle

/-- From `s` to `t` register `d` took the value `v` and the PC the value `pc`, and nothing else changed. -/
def OnlyRegisterAndPc (d : Reg) (v pc : Nat) (s t : State) : Prop :=
  (readReg d t).toNat = v ∧ t.pc.toNat = pc ∧ (∀ r, r ≠ d → readReg r t = readReg r s) ∧ SameElsewhere s t

/-- From `s` to `t` the PC took the value `pc`, and nothing else changed. -/
def OnlyPc (pc : Nat) (s t : State) : Prop :=
  t.pc.toNat = pc ∧ (∀ r, readReg r t = readReg r s) ∧ SameElsewhere s t

/-- The RR form (R52), under any opcode map: a word whose opcode value stands for the operation decodes to the
instruction on fields `a` and `b`. -/
def RegisterForm (op : Opcode) (i : Reg → Reg → Instr) : Prop :=
  ∀ map w, map (opcodeField w) = some op → decodeWith map w = .ok (i (aField w) (bField w))

/-- The I form (R52), under any opcode map: the same on the four immediate bits. -/
def ImmediateForm (op : Opcode) (i : Nibble → Instr) : Prop :=
  ∀ map w, map (opcodeField w) = some op → decodeWith map w = .ok (i (immField w))

/-- A run of `n` cycles (R157, the bounded form). -/
def runFor (n : Nat) (s : State) : Host.Outcome State Fault Refusal := Sys2Proof.core.run n s

/-- What the environment observes of a run: the latch after each committed cycle (R157, R158). -/
def ledsTrace (n : Nat) (s : State) : List Byte :=
  match n with
  | 0 => []
  | k + 1 =>
    match step s with
    | .next t => t.leds :: ledsTrace k t
    | .fault _ => []
    | .refused _ => []

/-- The end of a run as a fixed point (R157): for every input value the step answers the same state tuple. -/
def HeldInPlace (s : State) : Prop :=
  ∀ v, ∃ t, step (supplyInput v s) = .next t ∧ t.tuple = s.tuple

/-- The instruction of this cycle loads from the I/O port (R155). -/
def LoadsFromPort (s : State) : Prop :=
  ∃ a b, decode (fetch s) = .ok (.lw a b) ∧ readReg b s = ioAddr

end Sys2Proof.Machine
end

