-- ==== Sys2Proof/Certificates/Slice0/Obligations.lean ====
section
/-! DEFINITION. The statements for the provers, from the numbered rules of spec/. A rule's clause that is the spec's own
decision (D<n>) or the model's choice (a log entry) is named in the statement's docstring. -/

open Sys2Proof Sys2Proof.Machine

/-- The decoder extracts opcode, a, b, imm and simm from every word as the given bit slices. Formalises R51. -/
def Obligations.DecoderFieldsAreBitSlices : Prop :=
  ∀ w : Byte,
    (opcodeField w).toNat = w.toNat / 16 ∧ (regBits (aField w)).toNat = w.toNat / 4 % 4 ∧
      (regBits (bField w)).toNat = w.toNat % 4 ∧ (immField w).toNat = w.toNat % 16 ∧
      (simmValue (immField w)).toInt =
        (if w.toNat % 16 < 8 then ((w.toNat % 16 : Nat) : Int) else ((w.toNat % 16 : Nat) : Int) - 16) ∧
      (immField w).toNat = 4 * (regBits (aField w)).toNat + (regBits (bField w)).toNat

/-- Words written out in the spec decode to the instructions they stand for (numbers: the spec's decision D1). From
spec/95_test_vectors.md section 2, spec/30_encoding.md section 3, spec/92_eei_decisions.md D1,
spec/92_eei_decisions.md D10. The opcode numbers are the spec's decision D1 (log entry 7); BZ's register its decision
D10 (log entry 11). -/
def Obligations.WordsOfTheSpecDecode : Prop :=
  decode 0x06 = .ok (.sl .x1 .x2) ∧ decode 0x6C = .ok (.add .x3 .x0) ∧ decode 0x9C = .ok (.sw .x3 .x0) ∧
    decode 0x86 = .ok (.lw .x1 .x2) ∧ decode 0xA5 = .ok (.li 5) ∧ decode 0xBF = .ok (.lui 15) ∧
    decode 0xC6 = .ok (.jr .x1 .x2) ∧ decode 0xD8 = .ok (.bz .x2 (-8)) ∧ decode 0xE3 = .ok (.ji 3) ∧
    decode 0xF1 = .ok (.jir 1)

/-- Every instruction's word is its opcode's number and its operand fields (numbers: the spec's decision D1). From
spec/30_encoding.md section 3, spec/30_encoding.md section 5, spec/92_eei_decisions.md D1. The opcode numbers are the
spec's decision D1; log entry 7. -/
def Obligations.EncodedNumbersFollowTheOpcodeMap : Prop :=
  (∀ a b : Reg,
      (encode (.sl a b)).toNat = 0x00 + 4 * (regBits a).toNat + (regBits b).toNat ∧
      (encode (.sr a b)).toNat = 0x10 + 4 * (regBits a).toNat + (regBits b).toNat ∧
      (encode (.not a b)).toNat = 0x20 + 4 * (regBits a).toNat + (regBits b).toNat ∧
      (encode (.and a b)).toNat = 0x30 + 4 * (regBits a).toNat + (regBits b).toNat ∧
      (encode (.or a b)).toNat = 0x40 + 4 * (regBits a).toNat + (regBits b).toNat ∧
      (encode (.xor a b)).toNat = 0x50 + 4 * (regBits a).toNat + (regBits b).toNat ∧
      (encode (.add a b)).toNat = 0x60 + 4 * (regBits a).toNat + (regBits b).toNat ∧
      (encode (.slt a b)).toNat = 0x70 + 4 * (regBits a).toNat + (regBits b).toNat ∧
      (encode (.lw a b)).toNat = 0x80 + 4 * (regBits a).toNat + (regBits b).toNat ∧
      (encode (.sw a b)).toNat = 0x90 + 4 * (regBits a).toNat + (regBits b).toNat ∧
      (encode (.jr a b)).toNat = 0xC0 + 4 * (regBits a).toNat + (regBits b).toNat) ∧
    (∀ n : Nibble,
      (encode (.li n)).toNat = 0xA0 + n.toNat ∧
      (encode (.lui n)).toNat = 0xB0 + n.toNat ∧
      (encode (.ji n)).toNat = 0xE0 + n.toNat ∧
      (encode (.jir n)).toNat = 0xF0 + n.toNat) ∧
    (∀ (a : Reg) (n : Nibble), (encode (.bz a n)).toNat = 0xD0 + n.toNat)

/-- All 256 byte values are instructions (under the spec's decision D1). From spec/30_encoding.md section 4 (illegal,
reserved, hint encodings), spec/92_eei_decisions.md D1. It rests on decision D1, which assigns all sixteen opcode
values; log entry 7. -/
def Obligations.EveryByteDecodes : Prop :=
  ∀ w : Byte, ∃ i, decode w = .ok i ∧ i.WellFormed = true

/-- Decoding the word of any well-formed instruction gives it back, with every operand value. From spec/30_encoding.md
sections 1 to 5, spec/92_eei_decisions.md D1, spec/92_eei_decisions.md D10. The opcode numbers are decision D1 (log
entry 7); the register of a well-formed BZ is decision D10 (log entry 11). -/
def Obligations.DecodeOfEncodeIsTheInstruction : Prop :=
  ∀ i : Instr, i.WellFormed = true → decode (encode i) = .ok i

/-- Every word is the word of the one instruction it decodes to. From spec/30_encoding.md sections 1 to 5,
spec/92_eei_decisions.md D1, spec/92_eei_decisions.md D10. The opcode numbers are decision D1 (log entry 7); the
register of a well-formed BZ is decision D10 (log entry 11). -/
def Obligations.EncodeOfDecodeIsTheWord : Prop :=
  ∀ (w : Byte) (i : Instr), decode w = .ok i → i.WellFormed = true ∧ encode i = w

/-- A step executes the instruction decoded at the PC, then the environment moves to the next cycle. From
spec/40_cycle.md section 1, notes/assumptions/1.md, notes/assumptions/2.md. Moving the input stream and the cycle
count on is the model's own bookkeeping (log entries 1 and 2). -/
def Obligations.StepRunsTheDecodedInstruction : Prop :=
  ∀ (s : State) (i : Instr), decode (Memory.read s.imem s.pc.toNat) = .ok i →
    step s =
      match exec i s with
      | .next t => .next { t with inputs := t.inputs.tail, cycle := t.cycle + 1 }
      | .fault r => .fault r
      | .refused r => .refused r

/-- The step is total: under every opcode map it answers a next state for every state and input. Formalises R70, R130.
-/
def Obligations.StepNeverFails : Prop :=
  (∀ (map : Nibble → Option Opcode) (s : State) (v : Byte), ∃ t, cycleWith map (supplyInput v s) = .next t) ∧
    (∀ (i : Instr) (s : State), ∃ t, exec i s = .next t) ∧ ∀ s : State, ∃ t, step s = .next t

/-- A run of n cycles completes and takes n cycles and n input values. From spec/70_reset_and_hazards.md section 3,
spec/70_reset_and_hazards.md section 4, notes/assumptions/1.md, notes/assumptions/2.md. The cycle count and the input
list are the model's own (log entries 1 and 2). -/
def Obligations.RunsOfAnyLengthComplete : Prop :=
  ∀ (n : Nat) (s : State), ∃ t, runFor n s = .next t ∧ t.cycle = s.cycle + n ∧ t.inputs = s.inputs.drop n

/-- What the environment observes of a run of n cycles is the latch after each of them. From
spec/70_reset_and_hazards.md section 4. -/
def Obligations.LatchTraceFollowsTheRun : Prop :=
  ∀ (n : Nat) (s : State), (ledsTrace n s).length = n ∧
    ∀ k, k < n → ∃ t, runFor (k + 1) s = .next t ∧ (ledsTrace n s)[k]? = some t.leds

/-- An opcode value with no case writes 0 to register a and advances the PC, and nothing else changes. Formalises R81.
-/
def Obligations.UnassignedOpcodeClearsItsRegister : Prop :=
  ∀ (map : Nibble → Option Opcode) (s : State), map (opcodeField (fetch s)) = none →
    ∃ t, cycleWith map s = .next (endCycle t) ∧
      OnlyRegisterAndPc (aField (fetch s)) 0 ((s.pc.toNat + 1) % 256) s t

/-- The step agrees with the spec's whole-step pseudocode, written over numbers from its components. From
spec/40_cycle.md section 1 (whole step), spec/40_cycle.md section 2, spec/92_eei_decisions.md D1,
spec/92_eei_decisions.md D3, spec/92_eei_decisions.md D4, spec/92_eei_decisions.md D10. The pseudocode rests on the
spec's decisions D1, D3, D4 and D10 (log entries 7, 8, 9, 11). -/
def Obligations.StepIsTheWholeStepPseudocode : Prop :=
  ∀ s : State, step s = .next (endCycle (datapathStep s))

/-- SL: x[a] becomes x[a] * 2^x[b] modulo 256, the whole of x[b] the amount (decision D3). From spec/41_alu.md (SL),
spec/92_eei_decisions.md D3. The range of the amount is decision D3; log entry 8. The opcode number of the rule's
encoding is decision D1, stated by EncodedNumbersFollowTheOpcodeMap. -/
def Obligations.SlMultipliesByAPowerOfTwo : Prop :=
  RegisterForm .sl .sl ∧ ∀ (a b : Reg) (s : State), ∃ t, exec (.sl a b) s = .next t ∧
    OnlyRegisterAndPc a ((readReg a s).toNat * 2 ^ (readReg b s).toNat % 256)
      ((s.pc.toNat + 1) % 256) s t

/-- SR: x[a] becomes floor(x[a] / 2^x[b]), logical, the whole of x[b] the amount (decision D3). From spec/41_alu.md
(SR), spec/92_eei_decisions.md D3. The kind of shift and the range of the amount are decision D3; log entry 8. The
opcode number of the rule's encoding is decision D1, stated by EncodedNumbersFollowTheOpcodeMap. -/
def Obligations.SrDividesByAPowerOfTwo : Prop :=
  RegisterForm .sr .sr ∧ ∀ (a b : Reg) (s : State), ∃ t, exec (.sr a b) s = .next t ∧
    OnlyRegisterAndPc a ((readReg a s).toNat / 2 ^ (readReg b s).toNat)
      ((s.pc.toNat + 1) % 256) s t

/-- NOT: x[a] becomes 255 - x[b], whatever x[a] was. Formalises R92. The opcode number of the rule's encoding is
decision D1, stated by EncodedNumbersFollowTheOpcodeMap. -/
def Obligations.NotComplementsTheSecondOperand : Prop :=
  RegisterForm .not .not ∧ ∀ (a b : Reg) (s : State), ∃ t, exec (.not a b) s = .next t ∧
    OnlyRegisterAndPc a (255 - (readReg b s).toNat)
      ((s.pc.toNat + 1) % 256) s t

/-- AND: x[a] becomes the bitwise and of x[a] and x[b]. Formalises R93. The opcode number of the rule's encoding is
decision D1, stated by EncodedNumbersFollowTheOpcodeMap. -/
def Obligations.AndIsBitwise : Prop :=
  RegisterForm .and .and ∧ ∀ (a b : Reg) (s : State), ∃ t, exec (.and a b) s = .next t ∧
    OnlyRegisterAndPc a ((readReg a s).toNat &&& (readReg b s).toNat)
      ((s.pc.toNat + 1) % 256) s t

/-- OR: x[a] becomes the bitwise or of x[a] and x[b]. Formalises R94. The opcode number of the rule's encoding is
decision D1, stated by EncodedNumbersFollowTheOpcodeMap. -/
def Obligations.OrIsBitwise : Prop :=
  RegisterForm .or .or ∧ ∀ (a b : Reg) (s : State), ∃ t, exec (.or a b) s = .next t ∧
    OnlyRegisterAndPc a ((readReg a s).toNat ||| (readReg b s).toNat)
      ((s.pc.toNat + 1) % 256) s t

/-- XOR: x[a] becomes the bitwise exclusive or of x[a] and x[b]. Formalises R95. The opcode number of the rule's
encoding is decision D1, stated by EncodedNumbersFollowTheOpcodeMap. -/
def Obligations.XorIsBitwise : Prop :=
  RegisterForm .xor .xor ∧ ∀ (a b : Reg) (s : State), ∃ t, exec (.xor a b) s = .next t ∧
    OnlyRegisterAndPc a ((readReg a s).toNat ^^^ (readReg b s).toNat)
      ((s.pc.toNat + 1) % 256) s t

/-- ADD: x[a] becomes (x[a] + x[b]) modulo 256, the carry recorded nowhere. Formalises R96. The opcode number of the
rule's encoding is decision D1, stated by EncodedNumbersFollowTheOpcodeMap. -/
def Obligations.AddWrapsModulo256 : Prop :=
  RegisterForm .add .add ∧ ∀ (a b : Reg) (s : State), ∃ t, exec (.add a b) s = .next t ∧
    OnlyRegisterAndPc a (((readReg a s).toNat + (readReg b s).toNat) % 256)
      ((s.pc.toNat + 1) % 256) s t

/-- SLT: x[a] becomes 1 if x[a] < x[b] unsigned, else 0. Formalises R97. The opcode number of the rule's encoding is
decision D1, stated by EncodedNumbersFollowTheOpcodeMap. -/
def Obligations.SltComparesUnsigned : Prop :=
  RegisterForm .slt .slt ∧ ∀ (a b : Reg) (s : State), ∃ t, exec (.slt a b) s = .next t ∧
    OnlyRegisterAndPc a (if (readReg a s).toNat < (readReg b s).toNat then 1 else 0)
      ((s.pc.toNat + 1) % 256) s t

/-- NOT, ADD of a register holding 1, and ADD subtract modulo 256. From spec/41_alu.md (no subtract instruction),
spec/95_test_vectors.md program P3. -/
def Obligations.SubtractionIsComplementAndAdd : Prop :=
  ∀ (a b one : Reg) (s : State), a ≠ b → one ≠ a → one ≠ b → readReg one s = 1 →
    ∃ t u v, exec (.not b b) s = .next t ∧ exec (.add b one) t = .next u ∧ exec (.add a b) u = .next v ∧
      ((readReg a v).toNat : Int) = ((readReg a s).toNat - (readReg b s).toNat : Int) % 256

/-- NOT a b and then NOT a a move register b to register a. From spec/30_encoding.md section 5 (idioms, MOV). -/
def Obligations.TwoComplementsMoveARegister : Prop :=
  ∀ (a b : Reg) (s : State), ∃ t u, exec (.not a b) s = .next t ∧ exec (.not a a) t = .next u ∧
    OnlyRegisterAndPc a (readReg b s).toNat ((s.pc.toNat + 2) % 256) s u

/-- LW: x[a] becomes DMEM[x[b]], or the input port of this cycle when x[b] is 255. Formalises R100. The opcode number
of the rule's encoding is decision D1, stated by EncodedNumbersFollowTheOpcodeMap. -/
def Obligations.LwLoadsTheEntryOrThePort : Prop :=
  RegisterForm .lw .lw ∧ ∀ (a b : Reg) (s : State), ∃ t, exec (.lw a b) s = .next t ∧
    OnlyRegisterAndPc a
      (if (readReg b s).toNat = 255 then (buttons s).toNat
        else (Memory.read s.dmem (readReg b s).toNat).toNat)
      ((s.pc.toNat + 1) % 256) s t

/-- SW: LEDS takes x[b] when x[a] is 255, else DMEM[x[a]] does, and no register is written. Formalises R101. That
entry 255 of the data store stays, too, is decision D4 and stands in PortEntryIsNeverTouched. The opcode number of the
rule's encoding is decision D1, stated by EncodedNumbersFollowTheOpcodeMap. -/
def Obligations.SwStoresTheEntryOrTheLatch : Prop :=
  RegisterForm .sw .sw ∧ ∀ (a b : Reg) (s : State), ∃ t, exec (.sw a b) s = .next t ∧
    ((readReg a s).toNat = 255 → t.leds = readReg b s) ∧
      ((readReg a s).toNat ≠ 255 → t.leds = s.leds ∧ Memory.read t.dmem (readReg a s).toNat = readReg b s) ∧
      (∀ k, k ≠ (readReg a s).toNat → Memory.read t.dmem k = Memory.read s.dmem k) ∧
      (∀ r, readReg r t = readReg r s) ∧ t.pc.toNat = (s.pc.toNat + 1) % 256 ∧
      (∀ k, Memory.read t.imem k = Memory.read s.imem k) ∧ t.inputs = s.inputs ∧ t.cycle = s.cycle

/-- SW and then LW from the same address, not 255, returns the stored value and SW writes no register. From
spec/20_memory.md section 5, spec/95_test_vectors.md S6. -/
def Obligations.StoredValueIsLoadedNextCycle : Prop :=
  ∀ (s : State) (a b c : Reg), decode (fetch s) = .ok (.sw a b) →
    decode (Memory.read s.imem ((s.pc.toNat + 1) % 256)) = .ok (.lw c a) → (readReg a s).toNat ≠ 255 →
    ∃ t u, step s = .next t ∧ step t = .next u ∧ readReg c u = readReg b s ∧
      ∀ r, r ≠ c → readReg r u = readReg r s

/-- SW to 255 sets the latch; the LW from 255 after it reads that cycle's input, not the stored value. From
spec/20_memory.md section 2, spec/95_test_vectors.md S7. -/
def Obligations.PortReadIgnoresTheLatch : Prop :=
  ∀ (s : State) (a b c : Reg) (v : Byte), decode (fetch s) = .ok (.sw a b) →
    decode (Memory.read s.imem ((s.pc.toNat + 1) % 256)) = .ok (.lw c a) → (readReg a s).toNat = 255 →
    ∃ t u, step s = .next t ∧ step (supplyInput v t) = .next u ∧ t.leds = readReg b s ∧
      u.leds = readReg b s ∧ readReg c u = v

/-- LI: the low nibble of x0 becomes imm and the high nibble stays; x0 whatever the immediate bits. Formalises R110.
The opcode number of the rule's encoding is decision D1, stated by EncodedNumbersFollowTheOpcodeMap. -/
def Obligations.LiReplacesTheLowNibbleOfX0 : Prop :=
  ImmediateForm .li .li ∧ ∀ (imm : Nibble) (s : State), ∃ t, exec (.li imm) s = .next t ∧
    OnlyRegisterAndPc .x0 (s.x0.toNat / 16 * 16 + imm.toNat) ((s.pc.toNat + 1) % 256) s t

/-- LUI: the high nibble of x0 becomes imm and the low nibble stays; x0 whatever the immediate bits. Formalises R111.
The opcode number of the rule's encoding is decision D1, stated by EncodedNumbersFollowTheOpcodeMap. -/
def Obligations.LuiReplacesTheHighNibbleOfX0 : Prop :=
  ImmediateForm .lui .lui ∧ ∀ (imm : Nibble) (s : State), ∃ t, exec (.lui imm) s = .next t ∧
    OnlyRegisterAndPc .x0 (imm.toNat * 16 + s.x0.toNat % 16) ((s.pc.toNat + 1) % 256) s t

/-- LI lo and LUI hi, in either order, set x0 to 16*hi + lo whatever it held. From spec/43_immediate.md (building a
constant). -/
def Obligations.LiAndLuiBuildAnyConstant : Prop :=
  ∀ (lo hi : Nibble) (s : State),
    (∃ t u, exec (.li lo) s = .next t ∧ exec (.lui hi) t = .next u ∧
      OnlyRegisterAndPc .x0 (16 * hi.toNat + lo.toNat) ((s.pc.toNat + 2) % 256) s u) ∧
    (∃ t u, exec (.lui hi) s = .next t ∧ exec (.li lo) t = .next u ∧
      OnlyRegisterAndPc .x0 (16 * hi.toNat + lo.toNat) ((s.pc.toNat + 2) % 256) s u)

/-- JR: x[a] becomes pc + 1, the PC the old x[b], also when a = b. Formalises R120. The opcode number of the rule's
encoding is decision D1, stated by EncodedNumbersFollowTheOpcodeMap. -/
def Obligations.JrLinksAndJumpsToTheOldValue : Prop :=
  RegisterForm .jr .jr ∧ ∀ (a b : Reg) (s : State), ∃ t, exec (.jr a b) s = .next t ∧
    OnlyRegisterAndPc a ((s.pc.toNat + 1) % 256) (readReg b s).toNat s t

/-- BZ: if register a is NOT zero the PC becomes pc + 1 + simm, else pc + 1; nothing is written. From
spec/44_control.md (BZ), spec/30_encoding.md section 2 (field overlap in BZ), spec/92_eei_decisions.md D10. The tested
register is the spec's decision D10; log entry 11. -/
def Obligations.BzBranchesWhenNotZero : Prop :=
  (∀ map w, map (opcodeField w) = some .bz → decodeWith map w = .ok (.bz (aField w) (immField w))) ∧
    ∀ (a : Reg) (simm : Nibble) (s : State), ∃ t, exec (.bz a simm) s = .next t ∧
      OnlyPc
        (if (readReg a s).toNat = 0 then (s.pc.toNat + 1) % 256
          else (((s.pc.toNat : Int) + 1 +
            (if simm.toNat < 8 then (simm.toNat : Int) else (simm.toNat : Int) - 16)) % 256).toNat) s t

/-- JI: the PC becomes pc + 1 + imm modulo 256 and nothing else changes. Formalises R122. The opcode number of the
rule's encoding is decision D1, stated by EncodedNumbersFollowTheOpcodeMap. -/
def Obligations.JiJumpsForward : Prop :=
  ImmediateForm .ji .ji ∧ ∀ (imm : Nibble) (s : State), ∃ t, exec (.ji imm) s = .next t ∧
    OnlyPc ((s.pc.toNat + 1 + imm.toNat) % 256) s t

/-- JIR: the PC becomes pc - 1 - imm modulo 256 and nothing else changes. Formalises R123. The opcode number of the
rule's encoding is decision D1, stated by EncodedNumbersFollowTheOpcodeMap. -/
def Obligations.JirJumpsBackward : Prop :=
  ImmediateForm .jir .jir ∧ ∀ (imm : Nibble) (s : State), ∃ t, exec (.jir imm) s = .next t ∧
    OnlyPc (((s.pc.toNat : Int) - 1 - (imm.toNat : Int)) % 256).toNat s t

/-- The PC advances by one unless the instruction is JR, a taken BZ, JI or JIR. From spec/10_state.md section 3,
spec/40_cycle.md section 2 (next-PC multiplexer). -/
def Obligations.OnlyControlTransfersOverrideThePc : Prop :=
  ∀ s t : State, step s = .next t → t.pc.toNat ≠ (s.pc.toNat + 1) % 256 →
    (∃ a b, decode (fetch s) = .ok (.jr a b)) ∨
      (∃ a n, decode (fetch s) = .ok (.bz a n) ∧ (readReg a s).toNat ≠ 0) ∨
      (∃ n, decode (fetch s) = .ok (.ji n)) ∨ ∃ n, decode (fetch s) = .ok (.jir n)

/-- The commit writes register wa with wd if we is asserted, and no other; a step changes at most one register.
Formalises R13. -/
def Obligations.RegisterFileHasOneWritePort : Prop :=
  (∀ (c : Signals) (s : State), c.we = true →
      readReg c.wa (commit c s) = c.wd ∧ ∀ r, r ≠ c.wa → readReg r (commit c s) = readReg r s) ∧
    (∀ (c : Signals) (s : State), c.we = false → ∀ r, readReg r (commit c s) = readReg r s) ∧
    ∀ s t : State, step s = .next t → ∃ d, ∀ r, r ≠ d → readReg r t = readReg r s

/-- No run, however long, changes the instruction store. Formalises R41. -/
def Obligations.InstructionStoreIsNeverWritten : Prop :=
  ∀ (n : Nat) (s t : State), runFor n s = .next t → t.imem = s.imem

/-- LEDS changes only by an SW to 255, to the stored value, and no instruction reads it. Formalises R20. -/
def Obligations.LatchChangesOnlyByPortStoreAndIsNeverRead : Prop :=
  (∀ s t : State, step s = .next t → t.leds ≠ s.leds →
      ∃ a b, decode (fetch s) = .ok (.sw a b) ∧ (readReg a s).toNat = 255 ∧ t.leds = readReg b s) ∧
    ∀ (s : State) (v : Byte), ∃ t u, step s = .next t ∧ step (setLeds v s) = .next u ∧ setLeds t.leds u = t

/-- A data-store entry changes only by an SW to its address, to the stored value. From spec/10_state.md section 5,
spec/20_memory.md section 2, spec/92_eei_decisions.md D4. That entry 255 never changes is decision D4; log entry 9. -/
def Obligations.DataStoreChangesOnlyByStore : Prop :=
  ∀ (s t : State) (k : Nat), step s = .next t → Memory.read t.dmem k ≠ Memory.read s.dmem k →
    k ≠ 255 ∧ ∃ a b, decode (fetch s) = .ok (.sw a b) ∧ (readReg a s).toNat = k ∧
      Memory.read t.dmem k = readReg b s

/-- Data-store entry 255 is neither read nor written by any step (the spec's decision D4). From spec/10_state.md
section 5, spec/92_eei_decisions.md D4. Decision D4; log entry 9. -/
def Obligations.PortEntryIsNeverTouched : Prop :=
  ∀ (s : State) (v : Byte), ∃ t u, step s = .next t ∧
    step (setDmem (Memory.write s.dmem 255 v) s) = .next u ∧
      Memory.read t.dmem 255 = Memory.read s.dmem 255 ∧ Memory.read u.dmem 255 = v ∧
      (∀ k, k ≠ 255 → Memory.read u.dmem k = Memory.read t.dmem k) ∧
      setDmem [] u = setDmem [] t

/-- A step depends on the input port only if it loads from 255, and then register a takes that cycle's value.
Formalises R155. -/
def Obligations.InputIsSeenOnlyByPortLoad : Prop :=
  (∀ (s : State) (v v' : Byte), ¬ LoadsFromPort s →
      ∃ t, step (supplyInput v s) = .next t ∧ step (supplyInput v' s) = .next t) ∧
    ∀ (s : State) (v : Byte) (a b : Reg), decode (fetch s) = .ok (.lw a b) → (readReg b s).toNat = 255 →
      ∃ t, step (supplyInput v s) = .next t ∧ readReg a t = v

/-- The machine is held in place exactly by a taken BZ -1 on x3 and by a self-targeting JR whose link is in place.
From spec/70_reset_and_hazards.md section 4, spec/44_control.md (JR, BZ), spec/92_eei_decisions.md D1,
spec/92_eei_decisions.md D10. The byte 0xDF rests on decisions D1 and D10; log entries 7 and 11. -/
def Obligations.TheOnlyFixedPoints : Prop :=
  ∀ s : State, HeldInPlace s ↔
    (fetch s = 0xDF ∧ s.x3 ≠ 0) ∨
      ∃ a b, decode (fetch s) = .ok (.jr a b) ∧ a ≠ b ∧ readReg b s = s.pc ∧
        (readReg a s).toNat = (s.pc.toNat + 1) % 256

/-- After reset both stores are in canonical form. From spec/10_state.md section 6. -/
def Obligations.ResetMeetsTheInvariant : Prop :=
  State.reset.Inv

/-- Every step from a state with canonical stores gives a state with canonical stores. From spec/20_memory.md section
1, spec/20_memory.md section 3. -/
def Obligations.StepKeepsTheInvariant : Prop :=
  ∀ s t : State, s.Inv → step s = .next t → t.Inv

/-- Two canonical stores with the same byte at every address are the same list. From spec/20_memory.md section 1. -/
def Obligations.CanonicalStoresAreEqualIfReadsAgree : Prop :=
  ∀ m m' : Memory, Memory.wf m = true → Memory.wf m' = true →
    (∀ k, Memory.read m k = Memory.read m' k) → m = m'

/-- After reset: PC 0 (decision D2), instruction store 0; registers, data store, latch 0 by the model's choice. From
spec/10_state.md section 6, spec/92_eei_decisions.md D2, notes/assumptions/3.md, notes/assumptions/4.md,
notes/assumptions/5.md, notes/assumptions/6.md. PC 0 is decision D2 (log entry 6). Zero registers, data store and
latch are the MODEL'S CHOICE (DESIGN CHOICE, log entries 3, 4, 5): the spec leaves them OPEN. -/
def Obligations.ResetStateOfTheModel : Prop :=
  State.reset.pc = 0 ∧ (∀ k, Memory.read State.reset.imem k = 0) ∧ (∀ r, readReg r State.reset = 0) ∧
    (∀ k, Memory.read State.reset.dmem k = 0) ∧ State.reset.leds = 0

/-- Construction refuses a program of more than 256 entries and accepts any other program of bytes. Formalises R143.
-/
def Obligations.ProgramsOver256EntriesAreRefused : Prop :=
  ∀ p : ResetParams,
    (∀ program : List Byte, 256 < program.length →
      construct (program.map BitVec.toNat) p = .error .programTooLong) ∧
    (∀ program : List Byte, program.length ≤ 256 → ∃ s, construct (program.map BitVec.toNat) p = .ok s) ∧
    ∃ s, construct [] p = .ok s ∧ ∀ k, Memory.read s.imem k = 0

/-- Construction puts the program at address 0 on, zeros beyond, and the reset parameters into the state. From
spec/70_reset_and_hazards.md section 1, spec/10_state.md section 6, spec/92_eei_decisions.md D2,
notes/assumptions/6.md, notes/assumptions/14.md. PC 0 is decision D2 (log entry 6). Refusing an entry above 255 is the
spec's own inference (log entry 14). -/
def Obligations.ConstructionLoadsTheProgram : Prop :=
  (∀ (program : List Byte) (p : ResetParams), program.length ≤ 256 →
      ∃ s, construct (program.map BitVec.toNat) p = .ok s ∧
        (∀ k, Memory.read s.imem k = (program[k]?).getD 0) ∧
        (∀ k, k < 256 → Memory.read s.dmem k = (p.initDmem[k]?).getD 0) ∧
        s.pc = 0 ∧ s.x0 = p.initX0 ∧ s.x1 = p.initX1 ∧ s.x2 = p.initX2 ∧ s.x3 = p.initX3 ∧
        s.leds = p.initLeds ∧ s.Inv) ∧
    ∀ (program : List Nat) (p : ResetParams), program.length ≤ 256 → (∃ v ∈ program, 256 ≤ v) →
      construct program p = .error .entryNotByte

/-- A reset in mid-run starts from the reset state with the same program (the spec's decision D12). From
spec/70_reset_and_hazards.md section 1, spec/92_eei_decisions.md D12, notes/assumptions/13.md. Decisions D12 and D2;
log entries 13 and 6. -/
def Obligations.RestartKeepsTheProgram : Prop :=
  ∀ (p : ResetParams) (s : State),
    (restart p s).imem = s.imem ∧ (restart p s).pc = 0 ∧ (restart p s).x0 = p.initX0 ∧
      (restart p s).x1 = p.initX1 ∧ (restart p s).x2 = p.initX2 ∧ (restart p s).x3 = p.initX3 ∧
      (restart p s).leds = p.initLeds ∧ (restart p s).inputs = s.inputs ∧ (restart p s).cycle = s.cycle ∧
      ∀ k, k < 256 → Memory.read (restart p s).dmem k = (p.initDmem[k]?).getD 0
end

