-- ==== Sys2Proof/Laws/Memory.lean ====
section
/-! SUPPORT. The laws of a store: a read after a write, and that every operation keeps the canonical form. The read
laws hold of any list, canonical or not. -/

namespace Sys2Proof.Machine

@[simp] theorem Memory.read_nil (k : Nat) : Memory.read [] k = Memory.blank := rfl

theorem Memory.read_erase (m : Memory) (k j : Nat) :
    Memory.read (Memory.erase m k) j = if j = k then Memory.blank else Memory.read m j := by
  induction m with
  | nil => simp [Memory.erase]
  | cons c rest ih =>
    obtain ⟨i, b⟩ := c
    by_cases hik : i = k
    · by_cases hjk : j = k
      · simpa [Memory.erase, hik, hjk] using ih
      · simp [Memory.erase, Memory.read, hik, ih, hjk, Ne.symm hjk]
    · by_cases hij : i = j
      · subst hij
        simp [Memory.erase, Memory.read, hik]
      · simp [Memory.erase, Memory.read, hik, hij, ih]

theorem Memory.read_place (m : Memory) (k j : Nat) (v : Byte)  (hk : ∀ b, (k, b) ∉ m) :
    Memory.read (Memory.place m k v) j = if j = k then v else Memory.read m j := by
  induction m with
  | nil =>
    by_cases hjk : j = k
    · simp [Memory.place, Memory.read, hjk]
    · simp [Memory.place, Memory.read, hjk, Ne.symm hjk]
  | cons c rest ih =>
    obtain ⟨i, b⟩ := c
    have hik : i ≠ k := by
      rintro rfl
      exact hk b (by simp)
    have hrest : ∀ b, (k, b) ∉ rest := fun b' hb' => hk b' (by simp [hb'])
    by_cases hlt : k < i
    · by_cases hjk : j = k
      · simp [Memory.place, Memory.read, hlt, hjk]
      · simp [Memory.place, Memory.read, hlt, hjk, Ne.symm hjk]
    · by_cases hij : i = j
      · subst hij
        simp [Memory.place, Memory.read, hlt, hik]
      · simp [Memory.place, Memory.read, hlt, hij, ih hrest]

theorem Memory.not_mem_erase (m : Memory) (k : Nat) (b : Byte) : (k, b) ∉ Memory.erase m k := by
  induction m with
  | nil => simp [Memory.erase]
  | cons c rest ih =>
    obtain ⟨i, d⟩ := c
    by_cases hik : i = k
    · simpa [Memory.erase, hik] using ih
    · simp [Memory.erase, hik, ih, Ne.symm hik]

/-- A read after a write gives the value written there and leaves every other address alone. -/
theorem Memory.read_write (m : Memory) (k j : Nat) (v : Byte) :
    Memory.read (Memory.write m k v) j = if j = k then v else Memory.read m j := by
  by_cases hv : v = Memory.blank
  · simp [Memory.write, hv, Memory.read_erase]
  · rw [Memory.write, if_neg hv, Memory.read_place _ _ _ _ (Memory.not_mem_erase m k),
      Memory.read_erase]
    by_cases hjk : j = k <;> simp [hjk]

theorem Memory.wfFrom_mono {lo lo' : Nat} {m : Memory} (hlo : lo' ≤ lo) (h : Memory.wfFrom lo m = true) :
    Memory.wfFrom lo' m = true := by
  cases m with
  | nil => rfl
  | cons c rest =>
    obtain ⟨i, b⟩ := c
    simp only [Memory.wfFrom, Bool.and_eq_true, decide_eq_true_eq] at h ⊢
    exact ⟨⟨⟨by omega, h.1.1.2⟩, h.1.2⟩, h.2⟩

theorem Memory.wfFrom_erase {lo : Nat} {m : Memory} (k : Nat) (h : Memory.wfFrom lo m = true) :
    Memory.wfFrom lo (Memory.erase m k) = true := by
  induction m generalizing lo with
  | nil => rfl
  | cons c rest ih =>
    obtain ⟨i, b⟩ := c
    simp only [Memory.wfFrom, Bool.and_eq_true, decide_eq_true_eq] at h
    by_cases hik : i = k
    · rw [Memory.erase, if_pos hik]
      exact Memory.wfFrom_mono (by omega) (ih h.2)
    · simp only [Memory.erase, if_neg hik, Memory.wfFrom, Bool.and_eq_true, decide_eq_true_eq]
      exact ⟨h.1, ih h.2⟩

theorem Memory.wfFrom_place {lo k : Nat} {m : Memory} {v : Byte} (hlo : lo ≤ k) (hk : k < Config.dmemSize)
    (hv : v ≠ Memory.blank) (hm : ∀ b, (k, b) ∉ m) (h : Memory.wfFrom lo m = true) :
    Memory.wfFrom lo (Memory.place m k v) = true := by
  induction m generalizing lo with
  | nil => simp [Memory.place, Memory.wfFrom, hlo, hk, hv]
  | cons c rest ih =>
    obtain ⟨i, b⟩ := c
    have hik : i ≠ k := by
      rintro rfl
      exact hm b (by simp)
    have hrest : ∀ b, (k, b) ∉ rest := fun b' hb' => hm b' (by simp [hb'])
    simp only [Memory.wfFrom, Bool.and_eq_true, decide_eq_true_eq] at h
    by_cases hlt : k < i
    · simp only [Memory.place, if_pos hlt, Memory.wfFrom, Bool.and_eq_true, decide_eq_true_eq]
      exact ⟨⟨⟨hlo, hk⟩, hv⟩, ⟨⟨by omega, h.1.1.2⟩, h.1.2⟩, h.2⟩
    · simp only [Memory.place, if_neg hlt, Memory.wfFrom, Bool.and_eq_true, decide_eq_true_eq]
      exact ⟨h.1, ih (by omega) hrest h.2⟩

theorem Memory.wf_erase {m : Memory} (k : Nat) (h : Memory.wf m = true) : Memory.wf (Memory.erase m k) = true :=
  Memory.wfFrom_erase k h

/-- A write below the store's size keeps the canonical form. -/
theorem Memory.wf_write {m : Memory} {k : Nat} (v : Byte) (hk : k < Config.dmemSize) (h : Memory.wf m = true) :
    Memory.wf (Memory.write m k v) = true := by
  rw [Memory.write]
  split
  · exact Memory.wf_erase k h
  · exact Memory.wfFrom_place (Nat.zero_le k) hk ‹_› (Memory.not_mem_erase m k) (Memory.wf_erase k h)

end Sys2Proof.Machine
end

