-- ==== Sys2Proof/Laws/State.lean ====
section
/-! SUPPORT. One lemma per field per update of the state, so that no proof unfolds a record update; and the register
ports over every update. -/

namespace Sys2Proof.Machine

@[simp] theorem setPc_pc (v : Byte) (s : State) : (setPc v s).pc = v := rfl
@[simp] theorem setPc_x0 (v : Byte) (s : State) : (setPc v s).x0 = s.x0 := rfl
@[simp] theorem setPc_x1 (v : Byte) (s : State) : (setPc v s).x1 = s.x1 := rfl
@[simp] theorem setPc_x2 (v : Byte) (s : State) : (setPc v s).x2 = s.x2 := rfl
@[simp] theorem setPc_x3 (v : Byte) (s : State) : (setPc v s).x3 = s.x3 := rfl
@[simp] theorem setPc_dmem (v : Byte) (s : State) : (setPc v s).dmem = s.dmem := rfl
@[simp] theorem setPc_leds (v : Byte) (s : State) : (setPc v s).leds = s.leds := rfl
@[simp] theorem setPc_imem (v : Byte) (s : State) : (setPc v s).imem = s.imem := rfl
@[simp] theorem setPc_inputs (v : Byte) (s : State) : (setPc v s).inputs = s.inputs := rfl
@[simp] theorem setPc_cycle (v : Byte) (s : State) : (setPc v s).cycle = s.cycle := rfl
@[simp] theorem readReg_setPc (r : Reg) (v : Byte) (s : State) : readReg r (setPc v s) = readReg r s := by
  cases r <;> rfl

@[simp] theorem setLeds_pc (v : Byte) (s : State) : (setLeds v s).pc = s.pc := rfl
@[simp] theorem setLeds_x0 (v : Byte) (s : State) : (setLeds v s).x0 = s.x0 := rfl
@[simp] theorem setLeds_x1 (v : Byte) (s : State) : (setLeds v s).x1 = s.x1 := rfl
@[simp] theorem setLeds_x2 (v : Byte) (s : State) : (setLeds v s).x2 = s.x2 := rfl
@[simp] theorem setLeds_x3 (v : Byte) (s : State) : (setLeds v s).x3 = s.x3 := rfl
@[simp] theorem setLeds_dmem (v : Byte) (s : State) : (setLeds v s).dmem = s.dmem := rfl
@[simp] theorem setLeds_leds (v : Byte) (s : State) : (setLeds v s).leds = v := rfl
@[simp] theorem setLeds_imem (v : Byte) (s : State) : (setLeds v s).imem = s.imem := rfl
@[simp] theorem setLeds_inputs (v : Byte) (s : State) : (setLeds v s).inputs = s.inputs := rfl
@[simp] theorem setLeds_cycle (v : Byte) (s : State) : (setLeds v s).cycle = s.cycle := rfl
@[simp] theorem readReg_setLeds (r : Reg) (v : Byte) (s : State) : readReg r (setLeds v s) = readReg r s := by
  cases r <;> rfl

@[simp] theorem setDmem_pc (m : Memory) (s : State) : (setDmem m s).pc = s.pc := rfl
@[simp] theorem setDmem_x0 (m : Memory) (s : State) : (setDmem m s).x0 = s.x0 := rfl
@[simp] theorem setDmem_x1 (m : Memory) (s : State) : (setDmem m s).x1 = s.x1 := rfl
@[simp] theorem setDmem_x2 (m : Memory) (s : State) : (setDmem m s).x2 = s.x2 := rfl
@[simp] theorem setDmem_x3 (m : Memory) (s : State) : (setDmem m s).x3 = s.x3 := rfl
@[simp] theorem setDmem_dmem (m : Memory) (s : State) : (setDmem m s).dmem = m := rfl
@[simp] theorem setDmem_leds (m : Memory) (s : State) : (setDmem m s).leds = s.leds := rfl
@[simp] theorem setDmem_imem (m : Memory) (s : State) : (setDmem m s).imem = s.imem := rfl
@[simp] theorem setDmem_inputs (m : Memory) (s : State) : (setDmem m s).inputs = s.inputs := rfl
@[simp] theorem setDmem_cycle (m : Memory) (s : State) : (setDmem m s).cycle = s.cycle := rfl
@[simp] theorem readReg_setDmem (r : Reg) (m : Memory) (s : State) : readReg r (setDmem m s) = readReg r s := by
  cases r <;> rfl

@[simp] theorem setImem_pc (m : Memory) (s : State) : (setImem m s).pc = s.pc := rfl
@[simp] theorem setImem_x0 (m : Memory) (s : State) : (setImem m s).x0 = s.x0 := rfl
@[simp] theorem setImem_x1 (m : Memory) (s : State) : (setImem m s).x1 = s.x1 := rfl
@[simp] theorem setImem_x2 (m : Memory) (s : State) : (setImem m s).x2 = s.x2 := rfl
@[simp] theorem setImem_x3 (m : Memory) (s : State) : (setImem m s).x3 = s.x3 := rfl
@[simp] theorem setImem_dmem (m : Memory) (s : State) : (setImem m s).dmem = s.dmem := rfl
@[simp] theorem setImem_leds (m : Memory) (s : State) : (setImem m s).leds = s.leds := rfl
@[simp] theorem setImem_imem (m : Memory) (s : State) : (setImem m s).imem = m := rfl
@[simp] theorem setImem_inputs (m : Memory) (s : State) : (setImem m s).inputs = s.inputs := rfl
@[simp] theorem setImem_cycle (m : Memory) (s : State) : (setImem m s).cycle = s.cycle := rfl
@[simp] theorem readReg_setImem (r : Reg) (m : Memory) (s : State) : readReg r (setImem m s) = readReg r s := by
  cases r <;> rfl

@[simp] theorem endCycle_pc (s : State) : (endCycle s).pc = s.pc := rfl
@[simp] theorem endCycle_x0 (s : State) : (endCycle s).x0 = s.x0 := rfl
@[simp] theorem endCycle_x1 (s : State) : (endCycle s).x1 = s.x1 := rfl
@[simp] theorem endCycle_x2 (s : State) : (endCycle s).x2 = s.x2 := rfl
@[simp] theorem endCycle_x3 (s : State) : (endCycle s).x3 = s.x3 := rfl
@[simp] theorem endCycle_dmem (s : State) : (endCycle s).dmem = s.dmem := rfl
@[simp] theorem endCycle_leds (s : State) : (endCycle s).leds = s.leds := rfl
@[simp] theorem endCycle_imem (s : State) : (endCycle s).imem = s.imem := rfl
@[simp] theorem endCycle_inputs (s : State) : (endCycle s).inputs = s.inputs.tail := rfl
@[simp] theorem endCycle_cycle (s : State) : (endCycle s).cycle = s.cycle + 1 := rfl
@[simp] theorem readReg_endCycle (r : Reg) (s : State) : readReg r (endCycle s) = readReg r s := by
  cases r <;> rfl

@[simp] theorem supplyInput_pc (v : Byte) (s : State) : (supplyInput v s).pc = s.pc := rfl
@[simp] theorem supplyInput_x0 (v : Byte) (s : State) : (supplyInput v s).x0 = s.x0 := rfl
@[simp] theorem supplyInput_x1 (v : Byte) (s : State) : (supplyInput v s).x1 = s.x1 := rfl
@[simp] theorem supplyInput_x2 (v : Byte) (s : State) : (supplyInput v s).x2 = s.x2 := rfl
@[simp] theorem supplyInput_x3 (v : Byte) (s : State) : (supplyInput v s).x3 = s.x3 := rfl
@[simp] theorem supplyInput_dmem (v : Byte) (s : State) : (supplyInput v s).dmem = s.dmem := rfl
@[simp] theorem supplyInput_leds (v : Byte) (s : State) : (supplyInput v s).leds = s.leds := rfl
@[simp] theorem supplyInput_imem (v : Byte) (s : State) : (supplyInput v s).imem = s.imem := rfl
@[simp] theorem supplyInput_inputs (v : Byte) (s : State) : (supplyInput v s).inputs = v :: s.inputs.tail := rfl
@[simp] theorem supplyInput_cycle (v : Byte) (s : State) : (supplyInput v s).cycle = s.cycle := rfl
@[simp] theorem readReg_supplyInput (r : Reg) (v : Byte) (s : State) : readReg r (supplyInput v s) = readReg r s := by
  cases r <;> rfl

@[simp] theorem writeReg_pc (r : Reg) (v : Byte) (s : State) : (writeReg r v s).pc = s.pc := by
  cases r <;> rfl
@[simp] theorem writeReg_dmem (r : Reg) (v : Byte) (s : State) : (writeReg r v s).dmem = s.dmem := by
  cases r <;> rfl
@[simp] theorem writeReg_leds (r : Reg) (v : Byte) (s : State) : (writeReg r v s).leds = s.leds := by
  cases r <;> rfl
@[simp] theorem writeReg_imem (r : Reg) (v : Byte) (s : State) : (writeReg r v s).imem = s.imem := by
  cases r <;> rfl
@[simp] theorem writeReg_inputs (r : Reg) (v : Byte) (s : State) : (writeReg r v s).inputs = s.inputs := by
  cases r <;> rfl
@[simp] theorem writeReg_cycle (r : Reg) (v : Byte) (s : State) : (writeReg r v s).cycle = s.cycle := by
  cases r <;> rfl

/-- Reading the register just written gives the value; every other register is as before (R13). -/
@[simp] theorem readReg_writeReg (r q : Reg) (v : Byte) (s : State) :
    readReg r (writeReg q v s) = if r = q then v else readReg r s := by
  cases r <;> cases q <;> rfl

/-- A state is its register values and its other fields. -/
theorem State.ext_reads {s t : State} (hpc : s.pc = t.pc) (hr : ∀ r, readReg r s = readReg r t)
    (hd : s.dmem = t.dmem) (hl : s.leds = t.leds) (hi : s.imem = t.imem) (hn : s.inputs = t.inputs)
    (hc : s.cycle = t.cycle) : s = t := by
  have h0 := hr .x0
  have h1 := hr .x1
  have h2 := hr .x2
  have h3 := hr .x3
  cases s
  cases t
  simp_all [readReg]

end Sys2Proof.Machine
end

