-- ==== Sys2Proof/Laws/Ops.lean ====
section
/-! SUPPORT. What each shared operation can do, once: the data bus, the commit of a cycle, and that reset and
construction leave canonical stores. -/

namespace Sys2Proof.Machine

theorem memRead_port (s : State) : memRead ioAddr s = buttons s := by simp [memRead]

theorem memRead_ram {addr : Byte} (h : addr ≠ ioAddr) (s : State) :
    memRead addr s = Memory.read s.dmem addr.toNat := by simp [memRead, h]

/-- A store on the data bus touches the data store and the latch, nothing else. -/
theorem memWrite_pc (addr v : Byte) (s : State) : (memWrite addr v s).pc = s.pc := by
  unfold memWrite; split <;> rfl
theorem readReg_memWrite (r : Reg) (addr v : Byte) (s : State) : readReg r (memWrite addr v s) = readReg r s := by
  unfold memWrite; split <;> simp
theorem memWrite_imem (addr v : Byte) (s : State) : (memWrite addr v s).imem = s.imem := by
  unfold memWrite; split <;> rfl
theorem memWrite_inputs (addr v : Byte) (s : State) : (memWrite addr v s).inputs = s.inputs := by
  unfold memWrite; split <;> rfl
theorem memWrite_cycle (addr v : Byte) (s : State) : (memWrite addr v s).cycle = s.cycle := by
  unfold memWrite; split <;> rfl

/-- The latch takes the value of a store to the port, and no other store reaches it (R32). -/
theorem memWrite_leds (addr v : Byte) (s : State) :
    (memWrite addr v s).leds = if addr = ioAddr then v else s.leds := by
  unfold memWrite; split <;> rfl

/-- The data store takes a store to any other address, and none to the port (R32, D4). -/
theorem memWrite_dmem (addr v : Byte) (s : State) :
    (memWrite addr v s).dmem = if addr = ioAddr then s.dmem else Memory.write s.dmem addr.toNat v := by
  unfold memWrite; split <;> rfl

/-- The commit sets the PC (R75). -/
theorem commit_pc (c : Signals) (s : State) : (commit c s).pc = c.nextPc := rfl

/-- The commit writes at most the register `wa`, and only if `we` is asserted (R13, R75). -/
theorem readReg_commit (r : Reg) (c : Signals) (s : State) :
    readReg r (commit c s) = if c.we = true ∧ r = c.wa then c.wd else readReg r s := by
  unfold commit commitData commitReg
  cases c.we <;> cases c.dataWrite <;> simp [readReg_memWrite]

/-- The commit changes the latch by a data write to the port alone (R20, R75). -/
theorem commit_leds (c : Signals) (s : State) :
    (commit c s).leds = if c.dataWrite = true ∧ c.dataAddress = ioAddr then c.dataOut else s.leds := by
  unfold commit commitData commitReg
  cases c.we <;> cases c.dataWrite <;> simp [memWrite_leds]

/-- The commit changes the data store by a data write to another address alone (R19, R75). -/
theorem commit_dmem (c : Signals) (s : State) :
    (commit c s).dmem =
      if c.dataWrite = true ∧ c.dataAddress ≠ ioAddr then Memory.write s.dmem c.dataAddress.toNat c.dataOut
      else s.dmem := by
  unfold commit commitData commitReg
  by_cases h : c.dataAddress = ioAddr <;> cases c.we <;> cases c.dataWrite <;> simp [memWrite_dmem, h]

/-- The commit never reaches the instruction store (R18). -/
theorem commit_imem (c : Signals) (s : State) : (commit c s).imem = s.imem := by
  unfold commit commitData commitReg
  cases c.we <;> cases c.dataWrite <;> simp [memWrite_imem]

theorem commit_inputs (c : Signals) (s : State) : (commit c s).inputs = s.inputs := by
  unfold commit commitData commitReg
  cases c.we <;> cases c.dataWrite <;> simp [memWrite_inputs]

theorem commit_cycle (c : Signals) (s : State) : (commit c s).cycle = s.cycle := by
  unfold commit commitData commitReg
  cases c.we <;> cases c.dataWrite <;> simp [memWrite_cycle]

/-- Without a data write the data store and the latch stay. -/
theorem commit_noData {c : Signals} (h : c.dataWrite = false) (s : State) :
    (commit c s).dmem = s.dmem ∧ (commit c s).leds = s.leds := by
  simp [commit_dmem, commit_leds, h]

/-- A data write keeps the data store canonical: an 8-bit address is always inside it (R34). -/
theorem wf_memWrite {addr v : Byte} {s : State} (h : Memory.wf s.dmem = true) :
    Memory.wf (memWrite addr v s).dmem = true := by
  rw [memWrite_dmem]
  split
  · exact h
  · exact Memory.wf_write v addr.isLt h

theorem wf_loadFrom (k : Nat) (bytes : List Byte) (h : k + bytes.length ≤ Config.dmemSize) :
    Memory.wfFrom k (loadFrom k bytes) = true := by
  induction bytes generalizing k with
  | nil => rfl
  | cons v rest ih =>
    have hlen : k + 1 + rest.length ≤ Config.dmemSize := by
      simp only [List.length_cons] at h; omega
    rw [loadFrom]
    split
    · exact Memory.wfFrom_mono (Nat.le_succ k) (ih (k + 1) hlen)
    · simp only [Memory.wfFrom, Bool.and_eq_true, decide_eq_true_eq]
      exact ⟨⟨⟨le_refl k, by omega⟩, ‹_›⟩, ih (k + 1) hlen⟩

/-- Placing a word at the PC keeps the instruction store canonical. -/
theorem wf_placeWord {w : Byte} {s : State} (h : Memory.wf s.imem = true) :
    Memory.wf (placeWord w s).imem = true :=
  Memory.wf_write w s.pc.isLt h

/-- A word placed at the PC is the word fetched. -/
@[simp] theorem fetch_placeWord (w : Byte) (s : State) : fetch (placeWord w s) = w := by
  simp [fetch, placeWord, Memory.read_write]

/-- `State.reset` lists nothing, so both its stores are canonical. -/
theorem wf_reset_stores : Memory.wf State.reset.dmem = true ∧ Memory.wf State.reset.imem = true := ⟨rfl, rfl⟩

/-- Construction from an empty program at the default parameters is `State.reset`. -/
theorem construct_empty : construct [] {} = .ok State.reset := rfl

end Sys2Proof.Machine
end

