-- ==== Sys2Proof/Laws/Exec.lean ====
section
/-! SUPPORT. Execution, said once: every instruction commits one set of signals (spec/40_cycle.md R74), and a step is
that commit followed by the end of the cycle. Proofs over all instructions case on `overrides`, not on `exec`. -/

namespace Sys2Proof.Machine

/-- BZ's condition holds exactly of the values that are not zero (R121). -/
@[simp] theorem branchTaken_iff (x : Byte) : branchTaken x = true ↔ x ≠ 0 := by
  simp [branchTaken]

/-- The incrementer as a number: one more, modulo 256 (R15). -/
theorem pcPlusOne_toNat (s : State) : (pcPlusOne s).toNat = (s.pc.toNat + 1) % 256 := by
  simp [pcPlusOne, BitVec.toNat_add]

/-- The signals an instruction drives: the defaults under its override set (R73, R74). -/
def overrides (i : Instr) (s : State) : Signals :=
  match i with
  | .sl a b => aluSignals aluSl a b s
  | .sr a b => aluSignals aluSr a b s
  | .not a b => aluSignals (fun _ br => ~~~br) a b s
  | .and a b => aluSignals (fun ar br => ar &&& br) a b s
  | .or a b => aluSignals (fun ar br => ar ||| br) a b s
  | .xor a b => aluSignals (fun ar br => ar ^^^ br) a b s
  | .add a b => aluSignals (fun ar br => ar + br) a b s
  | .slt a b => aluSignals lessUnsigned a b s
  | .lw a b => { defaults a s with dataAddress := readReg b s, wd := memRead (readReg b s) s }
  | .sw a b =>
    { defaults a s with we := false, dataAddress := readReg a s, dataOut := readReg b s, dataWrite := true }
  | .li n => { defaults constantReg s with wd := mergeLow (readReg constantReg s) n }
  | .lui n => { defaults constantReg s with wd := mergeHigh (readReg constantReg s) n }
  | .jr a b => { defaults a s with wd := pcPlusOne s, nextPc := readReg b s }
  | .bz a n =>
    { defaults a s with we := false, nextPc := if branchTaken (readReg a s) then branchTarget n s else pcPlusOne s }
  | .ji n => { defaults (immReg n) s with we := false, nextPc := forwardTarget n s }
  | .jir n => { defaults (immReg n) s with we := false, nextPc := backwardTarget n s }

/-- Every instruction answers a next state, the commit of its signals. -/
theorem exec_eq (i : Instr) (s : State) : exec i s = .next (commit (overrides i s) s) := by
  cases i <;> rfl

/-- The signals of a cycle for a fetched word and what it decodes to (R74, R81). -/
def cycleSignals (w : Byte) (d : Except Reject Instr) (s : State) : Signals :=
  match d with
  | .ok i => overrides i s
  | .error (.unassignedOpcode _) => defaults (aField w) s

/-- A cycle answers a next state under every opcode map: one commit, then the end of the cycle. -/
theorem cycleWith_eq (map : Nibble → Option Opcode) (s : State) :
    cycleWith map s = .next (endCycle (commit (cycleSignals (fetch s) (decodeWith map (fetch s)) s) s)) := by
  unfold cycleWith executeWord cycleSignals
  cases decodeWith map (fetch s) with
  | ok i => simp [exec_eq, closeCycle]
  | error e => rfl

theorem step_eq (s : State) :
    step s = .next (endCycle (commit (cycleSignals (fetch s) (decode (fetch s)) s) s)) :=
  cycleWith_eq opcodeMap s

/-- Where the opcode map has a case, the cycle's signals are the instruction's. -/
theorem step_of_decode {s : State} {i : Instr} (h : decode (fetch s) = .ok i) :
    step s = .next (endCycle (commit (overrides i s) s)) := by
  rw [step_eq, h]
  rfl

/-- Only SW asserts the data write (R80). -/
theorem overrides_dataWrite (i : Instr) (s : State) :
    (overrides i s).dataWrite = true ↔ ∃ a b, i = .sw a b := by
  cases i <;> simp [overrides, aluSignals, defaults]

end Sys2Proof.Machine
end

