-- ==== Sys2Proof/Laws/PerInstr.lean ====
section
/-! SUPPORT. A statement about every instruction, one lemma per constructor: the opcode field of its word selects its
own operation, so no two mnemonics share a word (spec/30_encoding.md R54). -/

namespace Sys2Proof

/-- The operation of an instruction. -/
def opcodeOf (i : Instr) : Opcode :=
  match i with
  | .sl _ _ => .sl
  | .sr _ _ => .sr
  | .not _ _ => .not
  | .and _ _ => .and
  | .or _ _ => .or
  | .xor _ _ => .xor
  | .add _ _ => .add
  | .slt _ _ => .slt
  | .lw _ _ => .lw
  | .sw _ _ => .sw
  | .li _ => .li
  | .lui _ => .lui
  | .jr _ _ => .jr
  | .bz _ _ => .bz
  | .ji _ => .ji
  | .jir _ => .jir

/-- The opcode field of a word of the RR form is the opcode value. -/
theorem opcodeField_encodeRegs (op : Opcode) (a b : Reg) : opcodeField (encodeRegs op a b) = opcodeValue op := by
  cases op <;> cases a <;> cases b <;> rfl

/-- The opcode field of a word of the I or S form is the opcode value. -/
theorem opcodeField_encodeImm (op : Opcode) (n : Nibble) : opcodeField (encodeImm op n) = opcodeValue op := by
  cases op <;> revert n <;> decide

/-- The opcode map and the opcode values agree. -/
theorem opcodeMap_opcodeValue (op : Opcode) : opcodeMap (opcodeValue op) = some op := by
  cases op <;> rfl

/-- The encoded word's opcode field selects the instruction's own operation. -/
def Laws.EncodedOpcode.Statement (i : Instr) : Prop := opcodeMap (opcodeField (encode i)) = some (opcodeOf i)

theorem Laws.EncodedOpcode.sl (a b : Reg) : Laws.EncodedOpcode.Statement (.sl a b) := by
  rw [Laws.EncodedOpcode.Statement, encode, opcodeField_encodeRegs, opcodeMap_opcodeValue, opcodeOf]

theorem Laws.EncodedOpcode.sr (a b : Reg) : Laws.EncodedOpcode.Statement (.sr a b) := by
  rw [Laws.EncodedOpcode.Statement, encode, opcodeField_encodeRegs, opcodeMap_opcodeValue, opcodeOf]

theorem Laws.EncodedOpcode.not (a b : Reg) : Laws.EncodedOpcode.Statement (.not a b) := by
  rw [Laws.EncodedOpcode.Statement, encode, opcodeField_encodeRegs, opcodeMap_opcodeValue, opcodeOf]

theorem Laws.EncodedOpcode.and (a b : Reg) : Laws.EncodedOpcode.Statement (.and a b) := by
  rw [Laws.EncodedOpcode.Statement, encode, opcodeField_encodeRegs, opcodeMap_opcodeValue, opcodeOf]

theorem Laws.EncodedOpcode.or (a b : Reg) : Laws.EncodedOpcode.Statement (.or a b) := by
  rw [Laws.EncodedOpcode.Statement, encode, opcodeField_encodeRegs, opcodeMap_opcodeValue, opcodeOf]

theorem Laws.EncodedOpcode.xor (a b : Reg) : Laws.EncodedOpcode.Statement (.xor a b) := by
  rw [Laws.EncodedOpcode.Statement, encode, opcodeField_encodeRegs, opcodeMap_opcodeValue, opcodeOf]

theorem Laws.EncodedOpcode.add (a b : Reg) : Laws.EncodedOpcode.Statement (.add a b) := by
  rw [Laws.EncodedOpcode.Statement, encode, opcodeField_encodeRegs, opcodeMap_opcodeValue, opcodeOf]

theorem Laws.EncodedOpcode.slt (a b : Reg) : Laws.EncodedOpcode.Statement (.slt a b) := by
  rw [Laws.EncodedOpcode.Statement, encode, opcodeField_encodeRegs, opcodeMap_opcodeValue, opcodeOf]

theorem Laws.EncodedOpcode.lw (a b : Reg) : Laws.EncodedOpcode.Statement (.lw a b) := by
  rw [Laws.EncodedOpcode.Statement, encode, opcodeField_encodeRegs, opcodeMap_opcodeValue, opcodeOf]

theorem Laws.EncodedOpcode.sw (a b : Reg) : Laws.EncodedOpcode.Statement (.sw a b) := by
  rw [Laws.EncodedOpcode.Statement, encode, opcodeField_encodeRegs, opcodeMap_opcodeValue, opcodeOf]

theorem Laws.EncodedOpcode.li (n : Nibble) : Laws.EncodedOpcode.Statement (.li n) := by
  rw [Laws.EncodedOpcode.Statement, encode, opcodeField_encodeImm, opcodeMap_opcodeValue, opcodeOf]

theorem Laws.EncodedOpcode.lui (n : Nibble) : Laws.EncodedOpcode.Statement (.lui n) := by
  rw [Laws.EncodedOpcode.Statement, encode, opcodeField_encodeImm, opcodeMap_opcodeValue, opcodeOf]

theorem Laws.EncodedOpcode.jr (a b : Reg) : Laws.EncodedOpcode.Statement (.jr a b) := by
  rw [Laws.EncodedOpcode.Statement, encode, opcodeField_encodeRegs, opcodeMap_opcodeValue, opcodeOf]

theorem Laws.EncodedOpcode.bz (a : Reg) (n : Nibble) : Laws.EncodedOpcode.Statement (.bz a n) := by
  rw [Laws.EncodedOpcode.Statement, encode, opcodeField_encodeImm, opcodeMap_opcodeValue, opcodeOf]

theorem Laws.EncodedOpcode.ji (n : Nibble) : Laws.EncodedOpcode.Statement (.ji n) := by
  rw [Laws.EncodedOpcode.Statement, encode, opcodeField_encodeImm, opcodeMap_opcodeValue, opcodeOf]

theorem Laws.EncodedOpcode.jir (n : Nibble) : Laws.EncodedOpcode.Statement (.jir n) := by
  rw [Laws.EncodedOpcode.Statement, encode, opcodeField_encodeImm, opcodeMap_opcodeValue, opcodeOf]

end Sys2Proof
end

