-- ==== Sys2Proof/Laws/Run.lean ====
section
/-! SUPPORT. Runs of the machine, one cycle at a time. -/

namespace Sys2Proof.Machine

theorem runFor_zero (s : State) : runFor 0 s = .next s := rfl

/-- A run of `n + 1` cycles is one cycle and then a run of `n`. -/
theorem runFor_succ (n : Nat) (s : State) :
    runFor (n + 1) s = runFor n (endCycle (commit (cycleSignals (fetch s) (decode (fetch s)) s) s)) := by
  have h : Sys2Proof.core.step s =
      .next (endCycle (commit (cycleSignals (fetch s) (decode (fetch s)) s) s)) := step_eq s
  simp only [runFor, Host.Core.run, h]
  rfl

end Sys2Proof.Machine
end

