-- ==== Sys2Proof/Tests/Slice0.lean ====
section
/-! SUPPORT. The model's own tests. Expected results come from the spec: the encodings of spec/30_encoding.md R54, the
examples of each rule, and the vectors of spec/95_test_vectors.md (the id after each name). Then a witness for every
statement with hypotheses. -/

open Sys2Proof Sys2Proof.Machine

/-- A small state about to execute the word `w` at `pc`, with the four registers given. -/
def Sys2Proof.Tests.about (w pc x0 x1 x2 x3 : Byte) : State :=
  placeWord w { State.reset with pc := pc, x0 := x0, x1 := x1, x2 := x2, x3 := x3 }

/-- The PC and the four registers after one step. -/
def Sys2Proof.Tests.seen (s : State) : Option (List Byte) :=
  match step s with
  | .next t => some [t.pc, t.x0, t.x1, t.x2, t.x3]
  | .fault _ => none
  | .refused _ => none

/-- The latch and the data-store entry at `k` after one step. -/
def Sys2Proof.Tests.stored (k : Nat) (s : State) : Option (Byte × Byte) :=
  match step s with
  | .next t => some (t.leds, Memory.read t.dmem k)
  | .fault _ => none
  | .refused _ => none

open Sys2Proof.Tests

-- The syntax check.
theorem test_wellFormed_refuses_bz_on_another_register : Instr.WellFormed (.bz .x0 (-1)) = false := by decide
theorem test_wellFormed_accepts_bz_on_its_register : Instr.WellFormed (.bz .x3 (-1)) = true := by decide

-- One word per constructor, bit by bit from the pattern of R54.
theorem test_decode_sl : decode 0b00000110 = .ok (.sl .x1 .x2) := rfl
theorem test_decode_sr : decode 0b00010110 = .ok (.sr .x1 .x2) := rfl
theorem test_decode_not : decode 0b00101101 = .ok (.not .x3 .x1) := rfl
theorem test_decode_and : decode 0b00110110 = .ok (.and .x1 .x2) := rfl
theorem test_decode_or : decode 0b01001011 = .ok (.or .x2 .x3) := rfl
theorem test_decode_xor : decode 0b01011111 = .ok (.xor .x3 .x3) := rfl
theorem test_decode_add : decode 0b01101100 = .ok (.add .x3 .x0) := rfl
theorem test_decode_slt : decode 0b01110110 = .ok (.slt .x1 .x2) := rfl
theorem test_decode_lw : decode 0b10000110 = .ok (.lw .x1 .x2) := rfl
theorem test_decode_sw : decode 0b10011100 = .ok (.sw .x3 .x0) := rfl
theorem test_decode_li : decode 0b10101111 = .ok (.li 15) := rfl
theorem test_decode_lui : decode 0b10111000 = .ok (.lui 8) := rfl
theorem test_decode_jr : decode 0b11000110 = .ok (.jr .x1 .x2) := rfl
theorem test_decode_bz : decode 0b11011000 = .ok (.bz .x2 (-8)) := rfl
theorem test_decode_ji : decode 0b11100011 = .ok (.ji 3) := rfl
theorem test_decode_jir : decode 0b11110001 = .ok (.jir 1) := rfl
theorem test_decode_rejects_by_name :
    decodeWith (fun _ => none) 0x36 = .error (.unassignedOpcode 3) := rfl
theorem test_decodeTableWord : decodeTableWord 8 0x9C = some (.sw .x3 .x0) ∧ decodeTableWord 16 0x9C = none := by
  decide

-- ALU: vectors A1 to A34.
theorem test_sl_drops_bit7_A1 : seen (about 0x06 0x10 0 0x81 0x01 0) = some [0x11, 0, 0x02, 0x01, 0] := by decide
theorem test_sl_amount_is_not_masked_A6 : seen (about 0x06 0x10 0 0xFF 0x10 0) = some [0x11, 0, 0, 0x10, 0] := by decide
theorem test_sr_is_logical_A10 : seen (about 0x16 0x10 0 0x80 0x07 0) = some [0x11, 0, 0x01, 0x07, 0] := by decide
theorem test_sr_amount_is_not_masked_A12 : seen (about 0x16 0x10 0 0xFF 0x09 0) = some [0x11, 0, 0, 0x09, 0] := by decide
theorem test_not_uses_b_A15 : seen (about 0x26 0x10 0 0x77 0x0F 0) = some [0x11, 0, 0xF0, 0x0F, 0] := by decide
theorem test_not_into_x3_A17 : seen (about 0x2D 0x10 0 0xFF 0 0x12) = some [0x11, 0, 0xFF, 0, 0] := by decide
theorem test_and_A18 : seen (about 0x36 0x10 0 0xCC 0xAA 0) = some [0x11, 0, 0x88, 0xAA, 0] := by decide
theorem test_or_A20 : seen (about 0x46 0x10 0 0xCC 0xAA 0) = some [0x11, 0, 0xEE, 0xAA, 0] := by decide
theorem test_xor_A22 : seen (about 0x56 0x10 0 0xCC 0xAA 0) = some [0x11, 0, 0x66, 0xAA, 0] := by decide
theorem test_xor_clears_A23 : seen (about 0x5F 0x10 0 0 0 0x9D) = some [0x11, 0, 0, 0, 0] := by decide
theorem test_add_wraps_A24 : seen (about 0x66 0x10 0 0xF0 0x20 0) = some [0x11, 0, 0x10, 0x20, 0] := by decide
theorem test_add_doubles_A27 : seen (about 0x65 0x10 0 0x80 0 0) = some [0x11, 0, 0, 0, 0] := by decide
theorem test_slt_is_unsigned_A29 : seen (about 0x76 0x10 0 0x05 0x80 0) = some [0x11, 0, 0x01, 0x80, 0] := by decide
theorem test_slt_of_equals_A31 : seen (about 0x76 0x10 0 0x42 0x42 0) = some [0x11, 0, 0, 0x42, 0] := by decide

-- Load and store: vectors M1 to M11.
theorem test_lw_reads_the_port_M2 :
    seen (supplyInput 0x3C (setLeds 0x99 (about 0x86 0x10 0 0x77 0xFF 0))) = some [0x11, 0, 0x3C, 0xFF, 0] := by decide
theorem test_lw_addresses_with_the_old_value_M3 :
    seen (setDmem [(0x20, 0xAB)] (about 0x85 0x10 0 0x20 0 0)) = some [0x11, 0, 0xAB, 0, 0] := by decide
theorem test_sw_sets_the_latch_M7 :
    stored 255 (setLeds 0x99 (about 0x9C 0x10 0x07 0 0 0xFF)) = some (0x07, 0) := by decide
theorem test_sw_at_254_is_ram_M10 :
    stored 0xFE (setLeds 0x99 (about 0x96 0x10 0 0xFE 0xEE 0)) = some (0x99, 0xEE) := by decide

-- Immediates: the source's worked examples and the register override.
theorem test_li_S1 : seen (about 0xA5 0x10 0xA3 0x22 0x33 0x44) = some [0x11, 0xA5, 0x22, 0x33, 0x44] := by decide
theorem test_li_never_selects_x3_I3 : seen (about 0xAF 0x10 0 0x22 0x33 0x44) = some [0x11, 0x0F, 0x22, 0x33, 0x44] := by decide
theorem test_lui_S2 : seen (about 0xB5 0x10 0xA3 0x22 0x33 0x44) = some [0x11, 0x53, 0x22, 0x33, 0x44] := by decide
theorem test_lui_never_selects_x2_I8 : seen (about 0xB8 0x10 0x07 0x22 0x33 0x44) = some [0x11, 0x87, 0x22, 0x33, 0x44] := by decide

-- Control: vectors J1 to J25.
theorem test_jr_jumps_to_the_old_value_J2 : seen (about 0xC5 0x20 0 0x80 0 0) = some [0x80, 0, 0x21, 0, 0] := by decide
theorem test_jr_link_wraps_J3 : seen (about 0xC6 0xFF 0 0x77 0x05 0) = some [0x05, 0, 0, 0x05, 0] := by decide
theorem test_bz_falls_through_on_zero_J6 : seen (about 0xD2 0x10 0 0xFF 0xFF 0xFF) = some [0x11, 0, 0xFF, 0xFF, 0xFF] := by decide
theorem test_bz_wraps_below_zero_J11 : seen (about 0xD8 0x02 0 0 0x80 0) = some [0xFB, 0, 0, 0x80, 0] := by decide
theorem test_ji_wraps_J19 : seen (about 0xE3 0xFE 0x11 0x22 0x33 0x44) = some [0x02, 0x11, 0x22, 0x33, 0x44] := by decide
theorem test_ji_zero_is_the_nop_J16 : seen (about 0xE0 0x10 0x11 0x22 0x33 0x44) = some [0x11, 0x11, 0x22, 0x33, 0x44] := by decide
theorem test_jir_zero_goes_back_J24 : seen (about 0xF0 0x00 0x11 0x22 0x33 0x44) = some [0xFF, 0x11, 0x22, 0x33, 0x44] := by decide
theorem test_jir_J21 : seen (about 0xF1 0x0D 0x11 0x22 0x33 0x44) = some [0x0B, 0x11, 0x22, 0x33, 0x44] := by decide

/-- The default instruction, vector of spec/95_test_vectors.md 2.6, under a map with no case. -/
theorem test_unassigned_opcode_clears_a :
    (match cycleWith (fun _ => none) (about 0x39 0x09 0x11 0x22 0x7E 0x44) with
      | .next t => [t.pc, t.x0, t.x1, t.x2, t.x3]
      | .fault _ => []
      | .refused _ => []) = [0x0A, 0x11, 0x22, 0, 0x44] := by decide

/-- The zero fill executes SL x0, x0 and the PC wraps (vector A8): an empty store at pc 255. -/
theorem test_zero_byte_is_sl_A8 :
    seen { State.reset with pc := 0xFF, x0 := 5 } = some [0, 0xA0, 0, 0, 0] := by decide

/-- The host's placed word runs as the first instruction after reset: 0xA7 is LI 7. -/
theorem test_withFetchWord_runs_after_reset :
    seen (State.reset.withFetchWord 8 0xA7) = some [1, 7, 0, 0, 0] := by decide

-- Witnesses: a concrete case that meets all hypotheses of each statement that has some.
theorem test_witness_DecodeOfEncodeIsTheInstruction : Instr.WellFormed (.bz .x2 (-8)) = true := by decide
theorem test_witness_EncodeOfDecodeIsTheWord : decode 0xDF = .ok (.bz .x3 (-1)) := rfl
theorem test_witness_StepRunsTheDecodedInstruction :
    decode (Memory.read State.reset.imem State.reset.pc.toNat) = .ok (.sl .x0 .x0) := rfl
theorem test_witness_UnassignedOpcodeClearsItsRegister :
    (fun _ => none : Nibble → Option Opcode) (opcodeField (fetch State.reset)) = none := rfl
/-- The RR and I forms: this hardware's map has every operation. -/
theorem test_witness_forms :
    [0x06, 0x16, 0x26, 0x36, 0x46, 0x56, 0x66, 0x76, 0x86, 0x96, 0xA5, 0xB5, 0xC6, 0xD2, 0xE3, 0xF1].map
        (fun w => opcodeMap (opcodeField w)) =
      [some .sl, some .sr, some .not, some .and, some .or, some .xor, some .add, some .slt, some .lw, some .sw,
        some .li, some .lui, some .jr, some .bz, some .ji, some .jir] := by decide
theorem test_witness_SubtractionIsComplementAndAdd :
    (Reg.x0 ≠ Reg.x1 ∧ Reg.x2 ≠ Reg.x0 ∧ Reg.x2 ≠ Reg.x1) ∧ readReg .x2 (about 0 0 0x50 0x1F 1 0) = 1 := by decide

/-- SW x1, x2 and then LW x3, x1 (vector M12), about to execute at pc 0. -/
def Sys2Proof.Tests.storeThenLoad : State := setImem [(0, 0x96), (1, 0x8D)] (about 0x96 0 0 0x40 0xA7 0)
theorem test_witness_StoredValueIsLoadedNextCycle :
    decode (fetch storeThenLoad) = .ok (.sw .x1 .x2) ∧
      decode (Memory.read storeThenLoad.imem ((storeThenLoad.pc.toNat + 1) % 256)) = .ok (.lw .x3 .x1) ∧
        (readReg .x1 storeThenLoad).toNat ≠ 255 := ⟨rfl, rfl, by decide⟩
/-- SW x3, x0 and then LW x1, x3 (vector M13), at the top of the instruction store. -/
def Sys2Proof.Tests.portThenLoad : State := setImem [(0, 0x87), (255, 0x9C)] (about 0x9C 255 0x3E 0 0 0xFF)
theorem test_witness_PortReadIgnoresTheLatch :
    decode (fetch portThenLoad) = .ok (.sw .x3 .x0) ∧
      decode (Memory.read portThenLoad.imem ((portThenLoad.pc.toNat + 1) % 256)) = .ok (.lw .x1 .x3) ∧
        (readReg .x3 portThenLoad).toNat = 255 := ⟨rfl, rfl, rfl⟩

-- SW's clauses: at 255, and at 254 with a byte beside it.
theorem test_witness_SwStoresTheEntryOrTheLatch :
    (readReg .x3 (about 0x9C 0 7 0 0 0xFF)).toNat = 255 ∧ (readReg .x1 (about 0x96 0 0 0xFE 0xEE 0)).toNat ≠ 255 ∧
      253 ≠ (readReg .x1 (about 0x96 0 0 0xFE 0xEE 0)).toNat := by decide

theorem test_witness_OnlyControlTransfers_jr :
    ∃ t, step (about 0xC6 0x20 0 0x77 0x80 0) = .next t ∧ t.pc.toNat ≠ (0x20 + 1) % 256 := ⟨_, rfl, by decide⟩
theorem test_witness_OnlyControlTransfers_bz :
    ∃ t, step (about 0xDF 0xFF 0 0 0 1) = .next t ∧ t.pc.toNat ≠ (0xFF + 1) % 256 := ⟨_, rfl, by decide⟩
theorem test_witness_OnlyControlTransfers_ji :
    ∃ t, step (about 0xE1 0xFE 0 0 0 0) = .next t ∧ t.pc.toNat ≠ (0xFE + 1) % 256 := ⟨_, rfl, by decide⟩
theorem test_witness_OnlyControlTransfers_jir :
    ∃ t, step (about 0xF0 0 0 0 0 0) = .next t ∧ t.pc.toNat ≠ (0 + 1) % 256 := ⟨_, rfl, by decide⟩

theorem test_witness_RegisterFileHasOneWritePort :
    (defaults .x3 State.reset).we = true ∧ ({ defaults .x3 State.reset with we := false } : Signals).we = false ∧
      Reg.x0 ≠ (defaults .x3 State.reset).wa ∧ ∃ t, step State.reset = .next t := ⟨rfl, rfl, by decide, _, rfl⟩
theorem test_witness_InstructionStoreIsNeverWritten : ∃ t, runFor 2 storeThenLoad = .next t := ⟨_, rfl⟩
theorem test_witness_LatchChanges :
    ∃ t, step (about 0x9C 0 7 0 0 0xFF) = .next t ∧ t.leds ≠ (about 0x9C 0 7 0 0 0xFF).leds := ⟨_, rfl, by decide⟩
theorem test_witness_DataStoreChanges :
    ∃ t, step (about 0x96 0 0 0xFE 0xEE 0) = .next t ∧
      Memory.read t.dmem 254 ≠ Memory.read (about 0x96 0 0 0xFE 0xEE 0).dmem 254 := ⟨_, rfl, by decide⟩
theorem test_witness_InputIsSeen_not_by_the_zero_byte : ¬ LoadsFromPort State.reset := by
  rintro ⟨a, b, h, -⟩
  cases h
theorem test_witness_InputIsSeen_not_by_a_load_from_254 : ¬ LoadsFromPort (about 0x86 0 0 0 0xFE 0) := by
  rintro ⟨a, b, h, hb⟩
  cases h
  revert hb
  decide
theorem test_witness_InputIsSeen_by_port_load :
    decode (fetch (about 0x86 0 0 0 0xFF 0)) = .ok (.lw .x1 .x2) ∧
      (readReg .x2 (about 0x86 0 0 0 0xFF 0)).toNat = 255 := ⟨rfl, rfl⟩
/-- Both fixed points occur: J13, and J4 from its second execution on. -/
theorem test_witness_TheOnlyFixedPoints :
    (fetch (about 0xDF 0x10 0 0 0 1) = 0xDF ∧ (about 0xDF 0x10 0 0 0 1).x3 ≠ 0) ∧
      decode (fetch (about 0xC6 0x20 0 0x21 0x20 0)) = .ok (.jr .x1 .x2) ∧
        readReg .x2 (about 0xC6 0x20 0 0x21 0x20 0) = (about 0xC6 0x20 0 0x21 0x20 0).pc ∧
          (readReg .x1 (about 0xC6 0x20 0 0x21 0x20 0)).toNat = (0x20 + 1) % 256 := by
  refine ⟨by decide, rfl, by decide, by decide⟩
theorem test_witness_StepKeepsTheInvariant : storeThenLoad.Inv ∧ ∃ t, step storeThenLoad = .next t :=
  ⟨by decide, _, rfl⟩
theorem test_witness_CanonicalStores :
    Memory.wf [(1, 5)] = true ∧ Memory.wf (Memory.write [] 1 5) = true ∧ Memory.write [] 1 5 = [(1, 5)] := by decide
theorem test_wf_refuses_bad_stores :
    Memory.wf [(2, 5), (1, 5)] = false ∧ Memory.wf [(256, 5)] = false ∧ Memory.wf [(1, 0)] = false := by decide
theorem test_witness_Programs_too_long : 256 < (List.replicate 257 (0 : Byte)).length := by
  rw [List.length_replicate]; omega
theorem test_witness_Programs_exactly_256 : (List.replicate 256 (0 : Byte)).length ≤ 256 := by
  rw [List.length_replicate]
theorem test_witness_Construction_entry_not_byte : ([256] : List Nat).length ≤ 256 ∧ ∃ v ∈ [256], 256 ≤ v := by decide
theorem test_witness_LatchTraceFollowsTheRun : ledsTrace 2 portThenLoad = [0x3E, 0x3E] := by decide
end

section
/-! PROOFS. The state family (spec/10_state.md): the one write port of the register file (R13) and the output latch
(R20). Both come down to the signals of a cycle: what the commit does with them, and what they can depend on. -/

namespace Sys2Proof.Machine

/-- The next state of a step: the commit of the cycle's signals, then the end of the cycle. -/
theorem eq_of_step_next {s t : State} (h : step s = .next t) :
    t = endCycle (commit (cycleSignals (fetch s) (decode (fetch s)) s) s) := by
  rw [step_eq, Host.Outcome.next.injEq] at h
  exact h.symm

/-! What the signals of a cycle depend on. -/

/-- The signals of an instruction are a function of the PC, the registers and, for a load alone, the byte the data bus
answers (R72, R73). -/
theorem overrides_congr {s t : State} (i : Instr) (hpc : s.pc = t.pc) (hr : ∀ r, readReg r s = readReg r t)
    (hm : ∀ a b, i = .lw a b → memRead (readReg b t) s = memRead (readReg b t) t) :
    overrides i s = overrides i t := by
  have hnext : pcPlusOne s = pcPlusOne t := by simp [pcPlusOne, hpc]
  have hdef : ∀ a, defaults a s = defaults a t := fun a => by simp [defaults, hnext]
  cases i with
  | lw a b => simp [overrides, hdef, hr, hm a b rfl]
  | jr | bz | ji | jir =>
    simp [overrides, hdef, hr, hpc, hnext, branchTarget, forwardTarget, backwardTarget]
  | _ => simp [overrides, aluSignals, hdef, hr]

/-- The same of a cycle, whatever its word decodes to: the default instruction reads the PC alone (R81). -/
theorem cycleSignals_congr {s t : State} (w : Byte) (d : Except Reject Instr) (hpc : s.pc = t.pc)
    (hr : ∀ r, readReg r s = readReg r t)
    (hm : ∀ a b, d = .ok (.lw a b) → memRead (readReg b t) s = memRead (readReg b t) t) :
    cycleSignals w d s = cycleSignals w d t := by
  cases d with
  | ok i => exact overrides_congr i hpc hr fun a b hi => hm a b (congrArg Except.ok hi)
  | error e => simp [cycleSignals, defaults, pcPlusOne, hpc]

/-- The data write is asserted exactly by a word that decodes to SW, and it carries SW's two registers (R80, R101). -/
theorem cycleSignals_of_dataWrite {w : Byte} {d : Except Reject Instr} {s : State}
    (h : (cycleSignals w d s).dataWrite = true) :
    ∃ a b, d = .ok (.sw a b) ∧ (cycleSignals w d s).dataAddress = readReg a s ∧
      (cycleSignals w d s).dataOut = readReg b s := by
  cases d with
  | ok i =>
    obtain ⟨a, b, rfl⟩ := (overrides_dataWrite i s).mp h
    exact ⟨a, b, rfl, rfl, rfl⟩
  | error e => simp [cycleSignals, defaults] at h

/-! Nothing reads the latch. -/

@[simp] theorem fetch_setLeds (v : Byte) (s : State) : fetch (setLeds v s) = fetch s := rfl

/-- The data bus does not answer with the latch, at the port's address either (R20, R31). -/
@[simp] theorem memRead_setLeds (addr v : Byte) (s : State) : memRead addr (setLeds v s) = memRead addr s := rfl

@[simp] theorem cycleSignals_setLeds (w : Byte) (d : Except Reject Instr) (v : Byte) (s : State) :
    cycleSignals w d (setLeds v s) = cycleSignals w d s :=
  cycleSignals_congr w d rfl (fun r => readReg_setLeds r v s) fun _ b _ => memRead_setLeds (readReg b s) v s

/-- One commit from two states that differ in the latch alone: the results differ in the latch at most. -/
theorem setLeds_commit_setLeds (c : Signals) (v : Byte) (s : State) :
    setLeds (commit c s).leds (commit c (setLeds v s)) = commit c s := by
  apply State.ext_reads <;>
    simp [commit_pc, commit_dmem, commit_imem, commit_inputs, commit_cycle, readReg_commit]

/-! The statements. -/

/-- Settles O35: the commit's effect on the register file is `readReg_commit`, and every step is one commit. -/
theorem registerFileHasOneWritePort : Obligations.RegisterFileHasOneWritePort := by
  refine ⟨fun c s hwe => ⟨?_, fun r hr => ?_⟩, fun c s hwe r => ?_, fun s t hst => ?_⟩
  · simp [readReg_commit, hwe]
  · simp [readReg_commit, hr]
  · simp [readReg_commit, hwe]
  · refine ⟨(cycleSignals (fetch s) (decode (fetch s)) s).wa, fun r hr => ?_⟩
    simp [eq_of_step_next hst, readReg_commit, hr]

/-- A step that changes the latch is an SW to the port, and the latch takes the register it stores (R20, R101). -/
theorem sw_to_port_of_step_leds_ne {s t : State} (hst : step s = .next t) (hne : t.leds ≠ s.leds) :
    ∃ a b, decode (fetch s) = .ok (.sw a b) ∧ readReg a s = ioAddr ∧ t.leds = readReg b s := by
  rw [eq_of_step_next hst, endCycle_leds, commit_leds] at hne ⊢
  obtain ⟨hwrite, hport⟩ := of_not_not fun h => hne (if_neg h)
  obtain ⟨a, b, hsw, haddr, hout⟩ := cycleSignals_of_dataWrite hwrite
  exact ⟨a, b, hsw, haddr ▸ hport, (if_pos ⟨hwrite, hport⟩).trans hout⟩

/-- Settles O37: the cause and value by `sw_to_port_of_step_leds_ne`; the two runs commit the same signals, since no
signal depends on the latch. -/
theorem latchChangesOnlyByPortStoreAndIsNeverRead : Obligations.LatchChangesOnlyByPortStoreAndIsNeverRead := by
  refine ⟨fun s t hst hne => ?_, fun s v => ⟨_, _, step_eq s, step_eq (setLeds v s), ?_⟩⟩
  · obtain ⟨a, b, hsw, hport, hleds⟩ := sw_to_port_of_step_leds_ne hst hne
    exact ⟨a, b, hsw, congrArg BitVec.toNat hport, hleds⟩
  · rw [fetch_setLeds, cycleSignals_setLeds]
    exact congrArg endCycle (setLeds_commit_setLeds _ v s)

end Sys2Proof.Machine
end

section
/-! PROOFS. The memory family (spec/20_memory.md): no run reaches the instruction store (R41). The induction over the
length of a run stands once, for any property that every step keeps. -/

namespace Sys2Proof.Machine

/-- A property that every step keeps holds at the end of every run from a state where it holds. -/
theorem runFor_keeps {P : State → Prop} (hstep : ∀ s t, step s = .next t → P s → P t) {n : Nat} {s t : State}
    (hrun : runFor n s = .next t) (hs : P s) : P t := by
  induction n generalizing s with
  | zero =>
    rw [runFor_zero, Host.Outcome.next.injEq] at hrun
    exact hrun ▸ hs
  | succ n ih =>
    rw [runFor_succ] at hrun
    exact ih hrun (hstep _ _ (step_eq s) hs)

/-- A step keeps the instruction store: neither the commit nor the end of the cycle reaches it (R18, R41). -/
theorem step_imem {s t : State} (hst : step s = .next t) : t.imem = s.imem := by
  rw [eq_of_step_next hst, endCycle_imem, commit_imem]

/-- Settles O36: `step_imem`, carried along the run by `runFor_keeps`. -/
theorem instructionStoreIsNeverWritten : Obligations.InstructionStoreIsNeverWritten := fun _ s _ hrun =>
  runFor_keeps (P := fun u => u.imem = s.imem) (fun _ _ hst hu => (step_imem hst).trans hu) hrun rfl

end Sys2Proof.Machine
end

section
/-! PROOFS. The encoding family (spec/30_encoding.md): the decoder's fields as slices of the word's number (R51). -/

namespace Sys2Proof.Machine

/-- The index of the register a 2-bit index names is that index: no index is out of range (R11). -/
@[simp] theorem regBits_regOfBits (v : BitVec 2) : regBits (regOfBits v) = v := by
  revert v
  decide

theorem opcodeField_toNat (w : Byte) : (opcodeField w).toNat = w.toNat / 16 := by
  have := w.isLt
  rw [opcodeField, BitVec.extractLsb'_toNat, Nat.shiftRight_eq_div_pow]
  omega

theorem regBits_aField_toNat (w : Byte) : (regBits (aField w)).toNat = w.toNat / 4 % 4 := by
  rw [aField, regBits_regOfBits, BitVec.extractLsb'_toNat, Nat.shiftRight_eq_div_pow]

theorem regBits_bField_toNat (w : Byte) : (regBits (bField w)).toNat = w.toNat % 4 := by
  rw [bField, regBits_regOfBits, BitVec.extractLsb'_toNat, Nat.shiftRight_zero]

theorem immField_toNat (w : Byte) : (immField w).toNat = w.toNat % 16 := by
  rw [immField, BitVec.extractLsb'_toNat, Nat.shiftRight_zero]

/-- `simm` is the two's complement value of its four bits: widening keeps it (R53). -/
theorem simmValue_toInt (n : Nibble) :
    (simmValue n).toInt = if n.toNat < 8 then (n.toNat : Int) else (n.toNat : Int) - 16 := by
  rw [simmValue, BitVec.toInt_signExtend_of_le (by decide), BitVec.toInt_eq_toNat_cond]
  split <;> split <;> omega

/-- Settles O1: each field's number is its own lemma above, and `imm` = 4*a + b follows from the numbers. -/
theorem decoderFieldsAreBitSlices : Obligations.DecoderFieldsAreBitSlices := by
  refine fun w => ⟨opcodeField_toNat w, regBits_aField_toNat w, regBits_bField_toNat w, immField_toNat w, ?_, ?_⟩
  · rw [simmValue_toInt, immField_toNat]
  · rw [immField_toNat, regBits_aField_toNat, regBits_bField_toNat]
    omega

end Sys2Proof.Machine
end

section
/-! PROOFS. The cycle family (spec/40_cycle.md): totality (R70) and the default instruction of an opcode value with no
case (R81). The frame of a commit without a data write stands once, for every instruction that writes one register. -/

namespace Sys2Proof.Machine

/-- Settles O8: a cycle is one commit and the end of the cycle whatever the word decodes to (`cycleWith_eq`), and an
instruction is one commit (`exec_eq`). -/
theorem stepNeverFails : Obligations.StepNeverFails :=
  ⟨fun map s v => ⟨_, cycleWith_eq map (supplyInput v s)⟩, fun i s => ⟨_, exec_eq i s⟩, fun s => ⟨_, step_eq s⟩⟩

/-- A commit without a data write reaches nothing but the register file and the PC (R75, R80). -/
theorem sameElsewhere_commit {c : Signals} (hdata : c.dataWrite = false) (s : State) :
    SameElsewhere s (commit c s) := by
  obtain ⟨hdmem, hleds⟩ := commit_noData hdata s
  exact ⟨fun k => by rw [hdmem], hleds, fun k => by rw [commit_imem], commit_inputs c s, commit_cycle c s⟩

/-- A commit that writes a register and no data gives that register `wd` and the PC `next_pc`, and that is all (R75). -/
theorem onlyRegisterAndPc_commit {c : Signals} (hwe : c.we = true) (hdata : c.dataWrite = false) (s : State) :
    OnlyRegisterAndPc c.wa c.wd.toNat c.nextPc.toNat s (commit c s) := by
  refine ⟨?_, congrArg BitVec.toNat (commit_pc c s), fun r hr => ?_, sameElsewhere_commit hdata s⟩
  · rw [readReg_commit, if_pos ⟨hwe, rfl⟩]
  · rw [readReg_commit, if_neg fun h => hr h.2]

/-- Where the opcode map has no case, every signal is at its default for the plain `a` field (R58, R81). -/
theorem cycleSignals_of_no_case {map : Nibble → Option Opcode} {w : Byte} (h : map (opcodeField w) = none)
    (s : State) : cycleSignals w (decodeWith map w) s = defaults (aField w) s := by
  rw [decodeWith, h]
  rfl

/-- Settles O11: the cycle commits the default signals, which write 0 to register `a` and the incremented PC. -/
theorem unassignedOpcodeClearsItsRegister : Obligations.UnassignedOpcodeClearsItsRegister := by
  intro map s hnone
  refine ⟨commit (defaults (aField (fetch s)) s) s, ?_, ?_⟩
  · rw [cycleWith_eq, cycleSignals_of_no_case hnone]
  · rw [← pcPlusOne_toNat]
    exact onlyRegisterAndPc_commit (c := defaults (aField (fetch s)) s) rfl rfl s

end Sys2Proof.Machine
end

section
/-! PROOFS. The ALU family (spec/41_alu.md): the RR form and the effect of an ALU instruction stand once, for any
function the ALU computes; each instruction is then its function's value as a number. -/

namespace Sys2Proof.Machine

/-- A word whose opcode value stands for an operation decodes to that operation on the word's fields (R52, R54). -/
theorem decodeWith_of_case {map : Nibble → Option Opcode} {w : Byte} {op : Opcode}
    (h : map (opcodeField w) = some op) : decodeWith map w = .ok (operandsOf op w) := by
  rw [decodeWith, h]

/-- An operation that takes the fields `a` and `b` has the RR form (R52). -/
theorem registerForm_of_operandsOf {op : Opcode} {i : Reg → Reg → Instr}
    (h : ∀ w, operandsOf op w = i (aField w) (bField w)) : RegisterForm op i :=
  fun _ w hcase => (decodeWith_of_case hcase).trans (congrArg Except.ok (h w))

/-- An instruction that overrides `wd` alone gives register `a` the ALU's result on the two old values, advances the
PC, and that is all (R75, R77). -/
theorem exec_of_overrides_alu {i : Instr} {f : Byte → Byte → Byte} {a b : Reg} {s : State}
    (h : overrides i s = aluSignals f a b s) :
    ∃ t, exec i s = .next t ∧
      OnlyRegisterAndPc a (f (readReg a s) (readReg b s)).toNat ((s.pc.toNat + 1) % 256) s t := by
  refine ⟨commit (aluSignals f a b s) s, ?_, ?_⟩
  · rw [exec_eq, h]
  · rw [← pcPlusOne_toNat]
    exact onlyRegisterAndPc_commit (c := aluSignals f a b s) rfl rfl s

/-- What an ALU instruction does: the RR form, and in register `a` the number `v` of the two old values, where the
ALU's function computes `v` (R73, R77). -/
theorem aluInstruction_spec {op : Opcode} {i : Reg → Reg → Instr} (f : Byte → Byte → Byte)
    (v : Nat → Nat → Nat)
    (hform : ∀ w, operandsOf op w = i (aField w) (bField w))
    (halu : ∀ a b s, overrides (i a b) s = aluSignals f a b s)
    (hval : ∀ x y, (f x y).toNat = v x.toNat y.toNat) :
    RegisterForm op i ∧ ∀ (a b : Reg) (s : State), ∃ t, exec (i a b) s = .next t ∧
      OnlyRegisterAndPc a (v (readReg a s).toNat (readReg b s).toNat) ((s.pc.toNat + 1) % 256) s t := by
  refine ⟨registerForm_of_operandsOf hform, fun a b s => ?_⟩
  rw [← hval]
  exact exec_of_overrides_alu (halu a b s)

/-- SLT's result as a number (R97). -/
theorem lessUnsigned_toNat (x y : Byte) : (lessUnsigned x y).toNat = if x.toNat < y.toNat then 1 else 0 := by
  rw [lessUnsigned]
  split <;> rfl

/-- Settles O15: the complement of a byte is its difference from 255. -/
theorem notComplementsTheSecondOperand : Obligations.NotComplementsTheSecondOperand :=
  aluInstruction_spec (fun _ br => ~~~br) (fun _ n => 255 - n)
    (fun _ => rfl) (fun _ _ _ => rfl) (fun _ _ => BitVec.toNat_not)

/-- Settles O16: the number of a bitwise and is the bitwise and of the numbers. -/
theorem andIsBitwise : Obligations.AndIsBitwise :=
  aluInstruction_spec (fun ar br => ar &&& br) (fun m n => m &&& n)
    (fun _ => rfl) (fun _ _ _ => rfl) BitVec.toNat_and

/-- Settles O17: the number of a bitwise or is the bitwise or of the numbers. -/
theorem orIsBitwise : Obligations.OrIsBitwise :=
  aluInstruction_spec (fun ar br => ar ||| br) (fun m n => m ||| n)
    (fun _ => rfl) (fun _ _ _ => rfl) BitVec.toNat_or

/-- Settles O18: the number of a bitwise exclusive or is that of the numbers. -/
theorem xorIsBitwise : Obligations.XorIsBitwise :=
  aluInstruction_spec (fun ar br => ar ^^^ br) (fun m n => m ^^^ n)
    (fun _ => rfl) (fun _ _ _ => rfl) BitVec.toNat_xor

/-- Settles O19: the sum of two bytes is the sum of their numbers modulo 256, so the carry is lost. -/
theorem addWrapsModulo256 : Obligations.AddWrapsModulo256 :=
  aluInstruction_spec (fun ar br => ar + br) (fun m n => (m + n) % 256)
    (fun _ => rfl) (fun _ _ _ => rfl) BitVec.toNat_add

/-- Settles O20: the comparison's value is `lessUnsigned_toNat`. -/
theorem sltComparesUnsigned : Obligations.SltComparesUnsigned :=
  aluInstruction_spec lessUnsigned (fun m n => if m < n then 1 else 0)
    (fun _ => rfl) (fun _ _ _ => rfl) lessUnsigned_toNat

end Sys2Proof.Machine
end

section
/-! PROOFS. The load and store family (spec/42_loadstore.md): LW is a write of one register with what the data bus
answers, SW a data write that the bus sends to the latch or to one entry of the data store. -/

namespace Sys2Proof.Machine

/-- The address of the I/O port as a number (R5). -/
theorem eq_ioAddr_iff (addr : Byte) : addr = ioAddr ↔ addr.toNat = 255 :=
  BitVec.toNat_inj.symm

/-- What the data bus answers, as a number: this cycle's input at 255, the data store's entry elsewhere (R31). -/
theorem memRead_toNat (addr : Byte) (s : State) :
    (memRead addr s).toNat =
      if addr.toNat = 255 then (buttons s).toNat else (Memory.read s.dmem addr.toNat).toNat := by
  by_cases hport : addr = ioAddr
  · rw [if_pos ((eq_ioAddr_iff addr).mp hport), hport, memRead_port]
  · rw [if_neg (hport ∘ (eq_ioAddr_iff addr).mpr), memRead_ram hport]

/-- Settles O23: LW's signals write register `a` and no data, and the value is `memRead_toNat`. -/
theorem lwLoadsTheEntryOrThePort : Obligations.LwLoadsTheEntryOrThePort := by
  refine ⟨registerForm_of_operandsOf fun _ => rfl, fun a b s => ⟨_, exec_eq (.lw a b) s, ?_⟩⟩
  rw [← memRead_toNat, ← pcPlusOne_toNat]
  exact onlyRegisterAndPc_commit (c := overrides (.lw a b) s) rfl rfl s

/-- The latch after SW: the stored register if the address is the port's (R32, R101). -/
theorem commit_sw_leds (a b : Reg) (s : State) :
    (commit (overrides (.sw a b) s) s).leds = if readReg a s = ioAddr then readReg b s else s.leds := by
  simp [commit_leds, overrides]

/-- The data store after SW, entry by entry: the stored register at the address, unless that is the port's (R32, D4). -/
theorem read_commit_sw_dmem (a b : Reg) (s : State) (k : Nat) :
    Memory.read (commit (overrides (.sw a b) s) s).dmem k =
      if readReg a s ≠ ioAddr ∧ k = (readReg a s).toNat then readReg b s else Memory.read s.dmem k := by
  by_cases hport : readReg a s = ioAddr <;> simp [commit_dmem, overrides, hport, Memory.read_write]

/-- SW writes no register (R101). -/
theorem readReg_commit_sw (a b r : Reg) (s : State) :
    readReg r (commit (overrides (.sw a b) s) s) = readReg r s := by
  simp [readReg_commit, overrides]

/-- Settles O24: the latch and the data store after SW are the two lemmas above, read at 255 and elsewhere; no other
field is within the commit's reach. -/
theorem swStoresTheEntryOrTheLatch : Obligations.SwStoresTheEntryOrTheLatch := by
  refine ⟨registerForm_of_operandsOf fun _ => rfl, fun a b s => ⟨_, exec_eq (.sw a b) s, fun hport => ?_,
    fun hram => ⟨?_, ?_⟩, fun k hk => ?_, fun r => readReg_commit_sw a b r s, pcPlusOne_toNat s,
    fun k => by rw [commit_imem], commit_inputs _ s, commit_cycle _ s⟩⟩
  · rw [commit_sw_leds, if_pos ((eq_ioAddr_iff _).mpr hport)]
  · rw [commit_sw_leds, if_neg (hram ∘ (eq_ioAddr_iff _).mp)]
  · rw [read_commit_sw_dmem, if_pos ⟨hram ∘ (eq_ioAddr_iff _).mp, rfl⟩]
  · rw [read_commit_sw_dmem, if_neg fun h => hk h.2]

end Sys2Proof.Machine
end

section
/-! PROOFS. The immediate family (spec/43_immediate.md): LI and LUI each put one nibble beside the other nibble of x0.
The I form and the effect of the two stand once, for any merge of x0's old value with the immediate. -/

namespace Sys2Proof.Machine

/-- An operation that takes the four immediate bits has the I form (R52). -/
theorem immediateForm_of_operandsOf {op : Opcode} {i : Nibble → Instr}
    (h : ∀ w, operandsOf op w = i (immField w)) : ImmediateForm op i :=
  fun _ w hcase => (decodeWith_of_case hcase).trans (congrArg Except.ok (h w))

/-- What a constant-building instruction does: the I form, and in x0 the number `v` of its old value and the
immediate, where the merge computes `v` (R55, R73). -/
theorem constantInstruction_spec {op : Opcode} {i : Nibble → Instr} (merge : Byte → Nibble → Byte)
    (v : Nat → Nat → Nat)
    (hform : ∀ w, operandsOf op w = i (immField w))
    (hsig : ∀ n s, overrides (i n) s = { defaults constantReg s with wd := merge (readReg constantReg s) n })
    (hval : ∀ x n, (merge x n).toNat = v x.toNat n.toNat) :
    ImmediateForm op i ∧ ∀ (n : Nibble) (s : State), ∃ t, exec (i n) s = .next t ∧
      OnlyRegisterAndPc .x0 (v s.x0.toNat n.toNat) ((s.pc.toNat + 1) % 256) s t := by
  refine ⟨immediateForm_of_operandsOf hform, fun n s => ⟨_, exec_eq (i n) s, ?_⟩⟩
  rw [hsig, ← hval, ← pcPlusOne_toNat]
  exact onlyRegisterAndPc_commit (c := { defaults constantReg s with wd := merge s.x0 n }) rfl rfl s

/-- The number of a byte made of two nibbles. -/
theorem nibbles_toNat (hi lo : Nibble) : (hi ++ lo : Byte).toNat = hi.toNat * 16 + lo.toNat := by
  rw [BitVec.toNat_append, ← Nat.shiftLeft_add_eq_or_of_lt lo.isLt, Nat.shiftLeft_eq]

/-- The bits of a byte made of two nibbles. -/
theorem nibbles_getElem (hi lo : Nibble) (k : Nat) (hk : k < 8) :
    (hi ++ lo : Byte)[k] = if h : k < 4 then lo[k] else hi[k - 4] :=
  BitVec.getElem_append hk

/-- LI's merge is the byte's own high nibble, cut where the decoder cuts a word's opcode, beside the immediate (R110). -/
theorem mergeLow_eq_append (x : Byte) (n : Nibble) : mergeLow x n = opcodeField x ++ n := by
  ext k hk
  rw [mergeLow, immValue, opcodeField, nibbles_getElem]
  interval_cases k <;> simp

/-- LUI's merge is the immediate beside the byte's own low nibble, cut where the decoder cuts `imm` (R111). -/
theorem mergeHigh_eq_append (x : Byte) (n : Nibble) : mergeHigh x n = n ++ immField x := by
  ext k hk
  rw [mergeHigh, immValue, immField, nibbles_getElem]
  interval_cases k <;> simp

/-- LI's value as a number (R110). -/
theorem mergeLow_toNat (x : Byte) (n : Nibble) : (mergeLow x n).toNat = x.toNat / 16 * 16 + n.toNat := by
  rw [mergeLow_eq_append, nibbles_toNat, opcodeField_toNat]

/-- LUI's value as a number (R111). -/
theorem mergeHigh_toNat (x : Byte) (n : Nibble) : (mergeHigh x n).toNat = n.toNat * 16 + x.toNat % 16 := by
  rw [mergeHigh_eq_append, nibbles_toNat, immField_toNat]

/-- Settles O27: LI's signals write x0 with `mergeLow`, whose value is `mergeLow_toNat`. -/
theorem liReplacesTheLowNibbleOfX0 : Obligations.LiReplacesTheLowNibbleOfX0 :=
  constantInstruction_spec mergeLow (fun x n => x / 16 * 16 + n) (fun _ => rfl) (fun _ _ => rfl) mergeLow_toNat

/-- Settles O28: LUI's signals write x0 with `mergeHigh`, whose value is `mergeHigh_toNat`. -/
theorem luiReplacesTheHighNibbleOfX0 : Obligations.LuiReplacesTheHighNibbleOfX0 :=
  constantInstruction_spec mergeHigh (fun x n => n * 16 + x % 16) (fun _ => rfl) (fun _ _ => rfl) mergeHigh_toNat

end Sys2Proof.Machine
end

section
/-! PROOFS. The control-transfer family (spec/44_control.md): JR is a write of one register with the link under a next
PC of its own, a relative jump nothing but a next PC. The I form and the effect of JI and JIR stand once, for any
target. -/

namespace Sys2Proof.Machine

/-- A commit that writes no register and no data sets the PC, and that is all (R75). -/
theorem onlyPc_commit {c : Signals} (hwe : c.we = false) (hdata : c.dataWrite = false) (s : State) :
    OnlyPc c.nextPc.toNat s (commit c s) := by
  refine ⟨congrArg BitVec.toNat (commit_pc c s), fun r => ?_, sameElsewhere_commit hdata s⟩
  rw [readReg_commit, if_neg fun h => Bool.false_ne_true (hwe.symm.trans h.1)]

/-- Widening an immediate by zeros keeps its number (R53). -/
theorem immValue_toNat (n : Nibble) : (immValue n).toNat = n.toNat :=
  BitVec.toNat_setWidth_of_le (by decide)

/-- JI's target as a number (R122). -/
theorem forwardTarget_toNat (n : Nibble) (s : State) :
    (forwardTarget n s).toNat = (s.pc.toNat + 1 + n.toNat) % 256 := by
  rw [forwardTarget, BitVec.toNat_add, pcPlusOne_toNat, immValue_toNat, Nat.mod_add_mod]

/-- JIR's target as a number: the difference is taken over the integers, so it wraps below zero (R15, R123). -/
theorem backwardTarget_toNat (n : Nibble) (s : State) :
    (backwardTarget n s).toNat = (((s.pc.toNat : Int) - 1 - (n.toNat : Int)) % 256).toNat := by
  have hpc := s.pc.isLt
  have hn := n.isLt
  have hone : (1 : Byte).toNat = 1 := rfl
  rw [backwardTarget, BitVec.toNat_sub, BitVec.toNat_sub, immValue_toNat, hone]
  omega

/-- What an unconditional relative jump does: the I form, and in the PC the number `p` of the old PC and the immediate,
where the target computes `p` (R73, R78). -/
theorem relativeJump_spec {op : Opcode} {i : Nibble → Instr} (target : Nibble → State → Byte)
    (p : Nat → Nat → Nat)
    (hform : ∀ w, operandsOf op w = i (immField w))
    (hsig : ∀ n s, overrides (i n) s = { defaults (immReg n) s with we := false, nextPc := target n s })
    (hval : ∀ n s, (target n s).toNat = p s.pc.toNat n.toNat) :
    ImmediateForm op i ∧ ∀ (n : Nibble) (s : State), ∃ t, exec (i n) s = .next t ∧
      OnlyPc (p s.pc.toNat n.toNat) s t := by
  refine ⟨immediateForm_of_operandsOf hform, fun n s => ⟨_, exec_eq (i n) s, ?_⟩⟩
  rw [hsig, ← hval]
  exact onlyPc_commit (c := { defaults (immReg n) s with we := false, nextPc := target n s }) rfl rfl s

/-- Settles O30: JR's signals take both the link and the target from the state before the cycle, so that `a = b` is no
case of its own. -/
theorem jrLinksAndJumpsToTheOldValue : Obligations.JrLinksAndJumpsToTheOldValue := by
  refine ⟨registerForm_of_operandsOf fun _ => rfl, fun a b s => ⟨_, exec_eq (.jr a b) s, ?_⟩⟩
  rw [← pcPlusOne_toNat]
  exact onlyRegisterAndPc_commit (c := overrides (.jr a b) s) rfl rfl s

/-- Settles O32: JI's signals override the next PC alone, and the target's value is `forwardTarget_toNat`. -/
theorem jiJumpsForward : Obligations.JiJumpsForward :=
  relativeJump_spec forwardTarget (fun pc n => (pc + 1 + n) % 256)
    (fun _ => rfl) (fun _ _ => rfl) forwardTarget_toNat

/-- Settles O33: JIR's signals override the next PC alone, and the target's value is `backwardTarget_toNat`. -/
theorem jirJumpsBackward : Obligations.JirJumpsBackward :=
  relativeJump_spec backwardTarget (fun pc n => (((pc : Int) - 1 - (n : Int)) % 256).toNat)
    (fun _ => rfl) (fun _ _ => rfl) backwardTarget_toNat

end Sys2Proof.Machine
end

section
/-! PROOFS. The exceptions family (spec/60_exceptions.md): the core raises none, and the one reportable condition is
construction's. What construction answers stands once, for programs too long and for programs of bytes that fit. -/

namespace Sys2Proof.Machine

/-- A program longer than the instruction store is refused, whatever its entries are (R143). -/
theorem construct_tooLong {program : List Nat} (h : Config.imemSize < program.length) (p : ResetParams) :
    construct program p = .error .programTooLong :=
  if_pos h

/-- No entry of a program of bytes is outside 0..255, so none is refused for it (R150). -/
theorem any_notByte_map_toNat (program : List Byte) :
    (program.map BitVec.toNat).any (fun v => decide (256 ≤ v)) = false := by
  simpa using fun (v : Byte) (_ : v ∈ program) => v.isLt

/-- A byte is read back from its number. -/
theorem map_ofNat_map_toNat (program : List Byte) :
    (program.map BitVec.toNat).map (BitVec.ofNat 8) = program := by
  simp [Function.comp_def]

/-- A program of bytes that fits constructs the reset state with the program laid in from address 0 (R143, R150). -/
theorem construct_bytes {program : List Byte} (h : program.length ≤ Config.imemSize) (p : ResetParams) :
    construct (program.map BitVec.toNat) p = .ok (resetState (loadFrom 0 program) p) := by
  have hfits : ¬ Config.imemSize < (program.map BitVec.toNat).length := by
    rw [List.length_map]; exact Nat.not_lt.mpr h
  rw [construct, if_neg hfits, any_notByte_map_toNat, if_neg Bool.false_ne_true, map_ofNat_map_toNat]

/-- Settles O46: the length test comes first and alone can refuse a program of bytes; the empty program is one that
fits, and it lists no entry. -/
theorem programsOver256EntriesAreRefused : Obligations.ProgramsOver256EntriesAreRefused := by
  refine fun p => ⟨fun program hlong => ?_, fun program hfits => ⟨_, construct_bytes hfits p⟩,
    resetState (loadFrom 0 []) p, construct_bytes (program := []) (Nat.zero_le _) p, Memory.read_nil⟩
  exact construct_tooLong (by rwa [List.length_map]) p

end Sys2Proof.Machine
end

section
/-! PROOFS. The reset and hazards family (spec/70_reset_and_hazards.md): where a step sees the input port (R155). The
end of the cycle drops the port's value, so a step sees it only through what the data bus answers. -/

namespace Sys2Proof.Machine

@[simp] theorem fetch_supplyInput (v : Byte) (s : State) : fetch (supplyInput v s) = fetch s := rfl

@[simp] theorem buttons_supplyInput (v : Byte) (s : State) : buttons (supplyInput v s) = v := rfl

/-- Away from the port's address the data bus does not answer with the input (R31). -/
theorem memRead_supplyInput_ram {addr : Byte} (h : addr ≠ ioAddr) (v : Byte) (s : State) :
    memRead addr (supplyInput v s) = memRead addr s := by
  rw [memRead_ram h, memRead_ram h, supplyInput_dmem]

/-- Only the signals of a load from the port depend on the input (R73, R155). -/
theorem cycleSignals_supplyInput {s : State} (h : ¬ LoadsFromPort s) (v : Byte) :
    cycleSignals (fetch s) (decode (fetch s)) (supplyInput v s) =
      cycleSignals (fetch s) (decode (fetch s)) s :=
  cycleSignals_congr _ _ rfl (fun r => readReg_supplyInput r v s) fun a b hlw =>
    memRead_supplyInput_ram (fun hport => h ⟨a, b, hlw, hport⟩) v s

/-- A cycle with given signals ends in the same state whatever its input was: the port is not latched (R155). -/
theorem endCycle_commit_supplyInput (c : Signals) (v : Byte) (s : State) :
    endCycle (commit c (supplyInput v s)) = endCycle (commit c s) := by
  apply State.ext_reads <;>
    simp [commit_pc, commit_dmem, commit_leds, commit_imem, commit_inputs, commit_cycle, readReg_commit]

/-- A step that does not load from the port is the same under every input (R155). -/
theorem step_supplyInput {s : State} (h : ¬ LoadsFromPort s) (v : Byte) : step (supplyInput v s) = step s := by
  rw [step_eq, step_eq, fetch_supplyInput, cycleSignals_supplyInput h, endCycle_commit_supplyInput]

/-- LW gives its register what the data bus answers at the address it reads (R100). -/
theorem readReg_commit_lw (a b : Reg) (s : State) :
    readReg a (commit (overrides (.lw a b) s) s) = memRead (readReg b s) s := by
  simp [readReg_commit, overrides, defaults]

/-- Settles O40: without a load from the port both steps are the step of `s`; with one, LW's register takes what the
data bus answers at 255, the input of the cycle. -/
theorem inputIsSeenOnlyByPortLoad : Obligations.InputIsSeenOnlyByPortLoad := by
  refine ⟨fun s v v' hno => ?_, fun s v a b hlw hport => ⟨_, step_of_decode (s := supplyInput v s) hlw, ?_⟩⟩
  · exact ⟨_, (step_supplyInput hno v).trans (step_eq s), (step_supplyInput hno v').trans (step_eq s)⟩
  · rw [readReg_endCycle, readReg_commit_lw, readReg_supplyInput, (eq_ioAddr_iff _).mpr hport, memRead_port,
      buttons_supplyInput]

end Sys2Proof.Machine
end

section
/-! PROOFS. The round trip between words and instructions (spec/30_encoding.md R52, R54, R59, R61). The fields of an
encoded word are the operands it was made of, and the fields of any word put together again are the word. -/

namespace Sys2Proof.Machine

/-! The fields of an encoded word. -/

/-- The register of a register's own index is that register (R11). -/
@[simp] theorem regOfBits_regBits (r : Reg) : regOfBits (regBits r) = r := by
  cases r <;> rfl

@[simp] theorem aField_encodeRegs (op : Opcode) (a b : Reg) : aField (encodeRegs op a b) = a := by
  rw [aField, encodeRegs, BitVec.extractLsb'_append_eq_of_add_le (by decide), BitVec.extractLsb'_append_eq_left,
    regOfBits_regBits]

@[simp] theorem bField_encodeRegs (op : Opcode) (a b : Reg) : bField (encodeRegs op a b) = b := by
  rw [bField, encodeRegs, BitVec.extractLsb'_append_eq_of_add_le (by decide), BitVec.extractLsb'_append_eq_right,
    regOfBits_regBits]

@[simp] theorem immField_encodeImm (op : Opcode) (n : Nibble) : immField (encodeImm op n) = n :=
  BitVec.extractLsb'_append_eq_right

/-- The `a` field of a word of the I or S form is the register its immediate names (R56). -/
@[simp] theorem aField_encodeImm (op : Opcode) (n : Nibble) : aField (encodeImm op n) = immReg n := by
  rw [aField, encodeImm, BitVec.extractLsb'_append_eq_of_add_le (by decide), immReg]

/-- The opcode field of an encoded word selects the instruction's own operation (R54). -/
theorem opcodeMap_encode (i : Instr) : opcodeMap (opcodeField (encode i)) = some (opcodeOf i) := by
  cases i with
  | li | lui | bz | ji | jir => exact (congrArg opcodeMap (opcodeField_encodeImm _ _)).trans (opcodeMap_opcodeValue _)
  | _ => exact (congrArg opcodeMap (opcodeField_encodeRegs _ _ _)).trans (opcodeMap_opcodeValue _)

/-- The operands of an encoded word are the instruction's own; BZ's register is the one its offset names (R56). -/
theorem operandsOf_encode {i : Instr} (h : i.WellFormed = true) : operandsOf (opcodeOf i) (encode i) = i := by
  cases i with
  | bz a n =>
    have ha : a = immReg n := of_decide_eq_true h
    simp [opcodeOf, operandsOf, encode, ha]
  | _ => simp [opcodeOf, operandsOf, encode]

/-- Settles O5: the encoded word selects the instruction's operation, and its operands are the instruction's. -/
theorem decodeOfEncodeIsTheInstruction : Obligations.DecodeOfEncodeIsTheInstruction := fun i hwf =>
  (decodeWith_of_case (opcodeMap_encode i)).trans (congrArg Except.ok (operandsOf_encode hwf))

/-! The word of the fields of a word. -/

/-- The opcode map assigns every value, and the operation it assigns has that value (R54, D1). -/
theorem exists_opcode (v : Nibble) : ∃ op, opcodeMap v = some op ∧ opcodeValue op = v := by
  have hmap : (opcodeMap v).map opcodeValue = some v := by
    revert v
    decide
  exact Option.map_eq_some_iff.mp hmap

/-- A word decodes to the operation whose value its opcode field is, on the word's fields (R52, R54). -/
theorem exists_operandsOf_of_decode (w : Byte) :
    ∃ op, opcodeValue op = opcodeField w ∧ decode w = .ok (operandsOf op w) := by
  obtain ⟨op, hcase, hval⟩ := exists_opcode (opcodeField w)
  exact ⟨op, hval, decodeWith_of_case hcase⟩

theorem encodeImm_immField {op : Opcode} {w : Byte} (h : opcodeValue op = opcodeField w) :
    encodeImm op (immField w) = w := by
  rw [encodeImm, h, opcodeField, immField, BitVec.extractLsb'_append_extractLsb'_eq_extractLsb' (by rfl),
    BitVec.extractLsb'_eq_self]

theorem encodeRegs_aField_bField {op : Opcode} {w : Byte} (h : opcodeValue op = opcodeField w) :
    encodeRegs op (aField w) (bField w) = w := by
  rw [encodeRegs, aField, bField, regBits_regOfBits, regBits_regOfBits,
    BitVec.extractLsb'_append_extractLsb'_eq_extractLsb' (by rfl)]
  exact encodeImm_immField h

theorem encode_operandsOf {op : Opcode} {w : Byte} (h : opcodeValue op = opcodeField w) :
    encode (operandsOf op w) = w := by
  cases op with
  | li | lui | bz | ji | jir => exact encodeImm_immField h
  | _ => exact encodeRegs_aField_bField h

/-- The register BZ tests is the one its offset names, in every word: the two fields share bits (R56). -/
theorem aField_eq_immReg (w : Byte) : aField w = immReg (immField w) := by
  obtain ⟨op, -, hval⟩ := exists_opcode (opcodeField w)
  rw [← aField_encodeImm op, encodeImm_immField hval]

theorem wellFormed_operandsOf (op : Opcode) (w : Byte) : (operandsOf op w).WellFormed = true := by
  cases op with
  | bz => exact decide_eq_true (aField_eq_immReg w)
  | _ => rfl

/-- Settles O6: the instruction is `operandsOf` of the operation with the word's opcode value, which the two lemmas
above are about. -/
theorem encodeOfDecodeIsTheWord : Obligations.EncodeOfDecodeIsTheWord := by
  intro w i hi
  obtain ⟨op, hval, hop⟩ := exists_operandsOf_of_decode w
  obtain rfl : operandsOf op w = i := Except.ok.inj (hop.symm.trans hi)
  exact ⟨wellFormed_operandsOf op w, encode_operandsOf hval⟩

/-- Settles O4: every opcode value has an operation, and the operands taken from a word are well formed. -/
theorem everyByteDecodes : Obligations.EveryByteDecodes := by
  intro w
  obtain ⟨op, -, hop⟩ := exists_operandsOf_of_decode w
  exact ⟨_, hop, wellFormed_operandsOf op w⟩

/-! The word of an instruction as a number. -/

theorem encodeImm_toNat (op : Opcode) (n : Nibble) :
    (encodeImm op n).toNat = (opcodeValue op).toNat * 16 + n.toNat :=
  nibbles_toNat (opcodeValue op) n

theorem encodeRegs_toNat (op : Opcode) (a b : Reg) :
    (encodeRegs op a b).toNat = (opcodeValue op).toNat * 16 + 4 * (regBits a).toNat + (regBits b).toNat := by
  have hregs : (regBits a ++ regBits b : Nibble).toNat = 4 * (regBits a).toNat + (regBits b).toNat := by
    cases a <;> cases b <;> rfl
  rw [encodeRegs, nibbles_toNat, hregs, Nat.add_assoc]

/-- Settles O3: each clause is `encodeRegs_toNat` or `encodeImm_toNat` at the operation's number. -/
theorem encodedNumbersFollowTheOpcodeMap : Obligations.EncodedNumbersFollowTheOpcodeMap :=
  ⟨fun a b =>
    ⟨encodeRegs_toNat .sl a b, encodeRegs_toNat .sr a b, encodeRegs_toNat .not a b, encodeRegs_toNat .and a b,
      encodeRegs_toNat .or a b, encodeRegs_toNat .xor a b, encodeRegs_toNat .add a b, encodeRegs_toNat .slt a b,
      encodeRegs_toNat .lw a b, encodeRegs_toNat .sw a b, encodeRegs_toNat .jr a b⟩,
    fun n => ⟨encodeImm_toNat .li n, encodeImm_toNat .lui n, encodeImm_toNat .ji n, encodeImm_toNat .jir n⟩,
    fun _ n => encodeImm_toNat .bz n⟩

/-- Settles O2: each word is a fixed byte, which the decoder computes on. -/
theorem wordsOfTheSpecDecode : Obligations.WordsOfTheSpecDecode :=
  ⟨rfl, rfl, rfl, rfl, rfl, rfl, rfl, rfl, rfl, rfl⟩

end Sys2Proof.Machine
end

section
/-! PROOFS. Canonical stores (spec/20_memory.md section 1): every step keeps them, the bytes they read determine them,
and the reset state's are canonical. -/

namespace Sys2Proof.Machine

/-- The commit keeps the data store canonical: its one write is at an 8-bit address (R34, R75). -/
theorem wf_commit_dmem (c : Signals) {s : State} (h : Memory.wf s.dmem = true) :
    Memory.wf (commit c s).dmem = true := by
  rw [commit_dmem]
  split
  · exact Memory.wf_write c.dataOut c.dataAddress.isLt h
  · exact h

/-- Settles O43: the data store by `wf_commit_dmem`, the instruction store because no step changes it. -/
theorem stepKeepsTheInvariant : Obligations.StepKeepsTheInvariant := by
  rintro s t ⟨hdmem, himem⟩ hst
  refine ⟨?_, step_imem hst ▸ himem⟩
  rw [eq_of_step_next hst]
  exact wf_commit_dmem _ hdmem

/-- A store that lists an address first is canonical where the address and its byte are, and the rest is from the next
address on. -/
theorem Memory.wfFrom_cons {lo k : Nat} {b : Byte} {rest : Memory} :
    Memory.wfFrom lo ((k, b) :: rest) = true ↔
      lo ≤ k ∧ k < Config.dmemSize ∧ b ≠ Memory.blank ∧ Memory.wfFrom (k + 1) rest = true := by
  simp [Memory.wfFrom, and_assoc]

theorem Memory.read_cons_self (k : Nat) (b : Byte) (rest : Memory) : Memory.read ((k, b) :: rest) k = b :=
  if_pos rfl

theorem Memory.read_cons_of_ne {k j : Nat} (b : Byte) (rest : Memory) (h : k ≠ j) :
    Memory.read ((k, b) :: rest) j = Memory.read rest j :=
  if_neg h

/-- A store canonical from `lo` on lists nothing below `lo`. -/
theorem Memory.read_of_lt {lo k : Nat} {m : Memory} (h : Memory.wfFrom lo m = true) (hk : k < lo) :
    Memory.read m k = Memory.blank := by
  induction m generalizing lo with
  | nil => rfl
  | cons c rest ih =>
    obtain ⟨i, b⟩ := c
    obtain ⟨hlo, -, -, hrest⟩ := Memory.wfFrom_cons.mp h
    rw [Memory.read_cons_of_ne b rest (by omega)]
    exact ih hrest (by omega)

/-- A store that reads the same as a canonical one lists no address before that one's first. -/
theorem Memory.head_le_of_reads {lo k k' : Nat} {b b' : Byte} {rest rest' : Memory}
    (h : Memory.wfFrom lo ((k, b) :: rest) = true) (h' : Memory.wfFrom lo ((k', b') :: rest') = true)
    (hread : ∀ j, Memory.read ((k, b) :: rest) j = Memory.read ((k', b') :: rest') j) : k' ≤ k := by
  obtain ⟨-, -, hb, -⟩ := Memory.wfFrom_cons.mp h
  obtain ⟨-, hk', hb', hrest'⟩ := Memory.wfFrom_cons.mp h'
  by_contra hlt
  have hfrom : Memory.wfFrom k' ((k', b') :: rest') = true := Memory.wfFrom_cons.mpr ⟨le_rfl, hk', hb', hrest'⟩
  exact hb (by rw [← Memory.read_cons_self k b rest, hread, Memory.read_of_lt hfrom (by omega)])

/-- Two stores canonical from the same address on that read the same are the same list. -/
theorem Memory.eq_of_reads {lo : Nat} {m m' : Memory} (h : Memory.wfFrom lo m = true)
    (h' : Memory.wfFrom lo m' = true) (hread : ∀ k, Memory.read m k = Memory.read m' k) : m = m' := by
  induction m generalizing lo m' with
  | nil =>
    cases m' with
    | nil => rfl
    | cons c rest' =>
      obtain ⟨k, b⟩ := c
      obtain ⟨-, -, hb, -⟩ := Memory.wfFrom_cons.mp h'
      exact absurd ((Memory.read_cons_self k b rest').symm.trans (hread k).symm) hb
  | cons c rest ih =>
    obtain ⟨k, b⟩ := c
    obtain ⟨-, -, hb, hrest⟩ := Memory.wfFrom_cons.mp h
    cases m' with
    | nil => exact absurd ((Memory.read_cons_self k b rest).symm.trans (hread k)) hb
    | cons c' rest' =>
      obtain ⟨k', b'⟩ := c'
      obtain ⟨-, -, -, hrest'⟩ := Memory.wfFrom_cons.mp h'
      obtain rfl : k = k' := le_antisymm (Memory.head_le_of_reads h' h fun j => (hread j).symm)
        (Memory.head_le_of_reads h h' hread)
      obtain rfl : b = b' := by simpa [Memory.read_cons_self] using hread k
      refine congrArg _ (ih hrest hrest' fun j => ?_)
      by_cases hj : k = j
      · rw [Memory.read_of_lt hrest (by omega), Memory.read_of_lt hrest' (by omega)]
      · simpa [Memory.read_cons_of_ne _ _ hj] using hread j

/-- Settles O44: `Memory.eq_of_reads` from address 0 on. -/
theorem canonicalStoresAreEqualIfReadsAgree : Obligations.CanonicalStoresAreEqualIfReadsAgree :=
  fun _ _ => Memory.eq_of_reads

/-- Settles O42: the reset state lists nothing in either store. -/
theorem resetMeetsTheInvariant : Obligations.ResetMeetsTheInvariant := wf_reset_stores

end Sys2Proof.Machine
end

section
/-! PROOFS. Construction and reset (spec/70_reset_and_hazards.md R150, R151; spec/10_state.md R23): what a store reads
after bytes were laid into it, and the state both start from. -/

namespace Sys2Proof.Machine

/-- Bytes laid in from an address on are read there in order, and every other address is blank (R150). -/
theorem read_loadFrom (k j : Nat) (bytes : List Byte) :
    Memory.read (loadFrom k bytes) j = if j < k then Memory.blank else bytes[j - k]?.getD Memory.blank := by
  induction bytes generalizing k with
  | nil => simp [loadFrom]
  | cons v rest ih =>
    have hsplit : (if j < k then Memory.blank else (v :: rest)[j - k]?.getD Memory.blank) =
        if k = j then v else Memory.read (loadFrom (k + 1) rest) j := by
      rw [ih]
      rcases Nat.lt_trichotomy j k with hlt | rfl | hgt
      · rw [if_pos hlt, if_neg (by omega), if_pos (by omega)]
      · simp
      · obtain ⟨d, rfl⟩ := Nat.exists_eq_add_of_lt hgt
        rw [if_neg (by omega), if_neg (by omega), if_neg (by omega), show k + d + 1 - k = d + 1 by omega,
          show k + d + 1 - (k + 1) = d by omega, List.getElem?_cons_succ]
    rw [hsplit, loadFrom]
    split
    · by_cases hj : k = j
      · rw [if_pos hj, ih, if_pos (by omega), ‹v = Memory.blank›]
      · rw [if_neg hj]
    · rfl

/-- Bytes laid in from address 0 on: entry `j` is byte `j`, and 0 past the end. -/
theorem read_loadFrom_zero (j : Nat) (bytes : List Byte) :
    Memory.read (loadFrom 0 bytes) j = bytes[j]?.getD 0 := by
  rw [read_loadFrom, if_neg (Nat.not_lt_zero j)]
  rfl

/-- The reset data store is INIT_DMEM, and 0 past the list given (R23). -/
theorem read_resetState_dmem (imem : Memory) (p : ResetParams) {k : Nat} (hk : k < 256) :
    Memory.read (resetState imem p).dmem k = p.initDmem[k]?.getD 0 := by
  rw [← List.getElem?_take_of_lt (j := Config.dmemSize) hk]
  exact read_loadFrom_zero k _

/-- The reset data store is canonical, however long INIT_DMEM is. -/
theorem wf_resetState_dmem (imem : Memory) (p : ResetParams) : Memory.wf (resetState imem p).dmem = true :=
  wf_loadFrom 0 _ (by rw [Nat.zero_add]; exact List.length_take_le _ _)

/-- A program that fits and has an entry outside 0..255 is refused for the entry (R150). -/
theorem construct_notByte {program : List Nat} (hfits : program.length ≤ Config.imemSize)
    (hentry : ∃ v ∈ program, 256 ≤ v) (p : ResetParams) : construct program p = .error .entryNotByte := by
  rw [construct, if_neg (Nat.not_lt.mpr hfits), if_pos (by simpa using hentry)]

/-- Settles O47: construction is the reset state on the program laid in from address 0; the entries' check is
`construct_notByte`. -/
theorem constructionLoadsTheProgram : Obligations.ConstructionLoadsTheProgram := by
  refine ⟨fun program p hfits => ⟨_, construct_bytes hfits p, fun k => read_loadFrom_zero k program,
    fun k hk => read_resetState_dmem _ p hk, rfl, rfl, rfl, rfl, rfl, rfl, wf_resetState_dmem _ p, ?_⟩,
    fun program p hfits hentry => construct_notByte hfits hentry p⟩
  exact wf_loadFrom 0 program (by rwa [Nat.zero_add])

/-- Settles O48: a reset in mid-run is the reset state on the same instruction store, with the input stream kept. -/
theorem restartKeepsTheProgram : Obligations.RestartKeepsTheProgram := fun p s =>
  ⟨rfl, rfl, rfl, rfl, rfl, rfl, rfl, rfl, rfl, fun _ hk => read_resetState_dmem s.imem p hk⟩

/-- Settles O45: both stores list nothing, and every register is at the model's choice. -/
theorem resetStateOfTheModel : Obligations.ResetStateOfTheModel := by
  refine ⟨rfl, Memory.read_nil, fun r => ?_, Memory.read_nil, rfl⟩
  cases r <;> rfl

end Sys2Proof.Machine
end

section
/-! PROOFS. Steps and runs (spec/40_cycle.md section 1, spec/70_reset_and_hazards.md R157, R158): what a step answers,
and the inductions over the length of a run. -/

namespace Sys2Proof.Machine

/-- Settles O7: the step of a decoded word is the instruction's commit and the end of the cycle. -/
theorem stepRunsTheDecodedInstruction : Obligations.StepRunsTheDecodedInstruction := by
  intro s i hi
  rw [step_of_decode hi, exec_eq]
  rfl

/-- A step takes one cycle (log entry 2). -/
theorem step_cycle {s t : State} (hst : step s = .next t) : t.cycle = s.cycle + 1 := by
  rw [eq_of_step_next hst, endCycle_cycle, commit_cycle]

/-- A step uses one value of the input stream, whether it reads it or not (log entry 1). -/
theorem step_inputs {s t : State} (hst : step s = .next t) : t.inputs = s.inputs.tail := by
  rw [eq_of_step_next hst, endCycle_inputs, commit_inputs]

/-- A run of `n + 1` cycles is a run of `n` from the state the first step answers. -/
theorem runFor_succ_of_step {s t : State} (hst : step s = .next t) (n : Nat) : runFor (n + 1) s = runFor n t := by
  rw [runFor_succ, ← eq_of_step_next hst]

/-- Settles O9: one step and then, by induction, the run of the remaining cycles. -/
theorem runsOfAnyLengthComplete : Obligations.RunsOfAnyLengthComplete := by
  intro n
  induction n with
  | zero => exact fun s => ⟨s, rfl, rfl, rfl⟩
  | succ n ih =>
    intro s
    obtain ⟨-, -, htotal⟩ := stepNeverFails
    obtain ⟨t, hst⟩ := htotal s
    obtain ⟨u, hrun, hcycle, hinputs⟩ := ih t
    refine ⟨u, (runFor_succ_of_step hst n).trans hrun, ?_, ?_⟩
    · rw [hcycle, step_cycle hst]
      omega
    · rw [hinputs, step_inputs hst, List.drop_tail]

/-- The trace of a run begins with the latch after the first step (R158). -/
theorem ledsTrace_succ_of_step {s t : State} (hst : step s = .next t) (n : Nat) :
    ledsTrace (n + 1) s = t.leds :: ledsTrace n t := by
  rw [ledsTrace, hst]

/-- Settles O10: the trace and the run take the same first step, and the rest is the trace of a shorter run. -/
theorem latchTraceFollowsTheRun : Obligations.LatchTraceFollowsTheRun := by
  intro n
  induction n with
  | zero => exact fun s => ⟨rfl, fun k hk => absurd hk (Nat.not_lt_zero k)⟩
  | succ n ih =>
    intro s
    obtain ⟨-, -, htotal⟩ := stepNeverFails
    obtain ⟨t, hst⟩ := htotal s
    obtain ⟨hlength, hlatch⟩ := ih t
    rw [ledsTrace_succ_of_step hst]
    refine ⟨by rw [List.length_cons, hlength], fun k hk => ?_⟩
    cases k with
    | zero => exact ⟨t, runFor_succ_of_step hst 0, rfl⟩
    | succ k =>
      obtain ⟨u, hrun, hu⟩ := hlatch k (by omega)
      exact ⟨u, (runFor_succ_of_step hst (k + 1)).trans hrun, hu⟩

end Sys2Proof.Machine
end

section
/-! PROOFS. The shifts (spec/41_alu.md R90, R91) and the idioms of several instructions: subtraction, the register move
and the constant. The effects of two instructions on one register compose once, for any two. -/

namespace Sys2Proof.Machine

/-- The left shift's result as a number: the whole of the second operand is the amount (R90, D3). -/
theorem aluSl_toNat (x y : Byte) : (aluSl x y).toNat = x.toNat * 2 ^ y.toNat % 256 := by
  rw [aluSl, BitVec.toNat_shiftLeft, Nat.shiftLeft_eq]

/-- The right shift's result as a number: zeros are shifted in (R91, D3). -/
theorem aluSr_toNat (x y : Byte) : (aluSr x y).toNat = x.toNat / 2 ^ y.toNat := by
  rw [aluSr, BitVec.toNat_ushiftRight, Nat.shiftRight_eq_div_pow]

/-- Settles O13: the left shift's value is `aluSl_toNat`. -/
theorem slMultipliesByAPowerOfTwo : Obligations.SlMultipliesByAPowerOfTwo :=
  aluInstruction_spec aluSl (fun m n => m * 2 ^ n % 256) (fun _ => rfl) (fun _ _ _ => rfl) aluSl_toNat

/-- Settles O14: the right shift's value is `aluSr_toNat`. -/
theorem srDividesByAPowerOfTwo : Obligations.SrDividesByAPowerOfTwo :=
  aluInstruction_spec aluSr (fun m n => m / 2 ^ n) (fun _ => rfl) (fun _ _ _ => rfl) aluSr_toNat

theorem SameElsewhere.trans {s t u : State} (hst : SameElsewhere s t) (htu : SameElsewhere t u) :
    SameElsewhere s u := by
  obtain ⟨hdmem, hleds, himem, hinputs, hcycle⟩ := hst
  obtain ⟨hdmem', hleds', himem', hinputs', hcycle'⟩ := htu
  exact ⟨fun k => (hdmem' k).trans (hdmem k), hleds'.trans hleds, fun k => (himem' k).trans (himem k),
    hinputs'.trans hinputs, hcycle'.trans hcycle⟩

/-- Two changes of one register and the PC are one change, to the second's values. -/
theorem OnlyRegisterAndPc.trans {d : Reg} {v v' pc pc' : Nat} {s t u : State} (hst : OnlyRegisterAndPc d v pc s t)
    (htu : OnlyRegisterAndPc d v' pc' t u) : OnlyRegisterAndPc d v' pc' s u := by
  obtain ⟨-, -, hregs, helse⟩ := hst
  obtain ⟨hv', hpc', hregs', helse'⟩ := htu
  exact ⟨hv', hpc', fun r hr => (hregs' r hr).trans (hregs r hr), helse.trans helse'⟩

/-- Two instructions that each change the same register and advance the PC by one leave together the second's value
and a PC advanced by two. -/
theorem exec_exec_onlyRegisterAndPc {i j : Instr} {d : Reg} {s : State} {v v' : Nat} (w : Nat → Nat)
    (hi : ∃ t, exec i s = .next t ∧ OnlyRegisterAndPc d v ((s.pc.toNat + 1) % 256) s t)
    (hj : ∀ t, ∃ u, exec j t = .next u ∧
      OnlyRegisterAndPc d (w (readReg d t).toNat) ((t.pc.toNat + 1) % 256) t u)
    (hv : w v = v') :
    ∃ t u, exec i s = .next t ∧ exec j t = .next u ∧ OnlyRegisterAndPc d v' ((s.pc.toNat + 2) % 256) s u := by
  obtain ⟨t, hst, hit⟩ := hi
  obtain ⟨u, htu, hju⟩ := hj t
  obtain ⟨hreg, hpc, -⟩ := id hit
  have hpc2 : (t.pc.toNat + 1) % 256 = (s.pc.toNat + 2) % 256 := by omega
  rw [hreg, hv, hpc2] at hju
  exact ⟨t, u, hst, htu, hit.trans hju⟩

/-- Settles O22: the second complement is of the first's result, and 255 - (255 - x) is x for a byte. -/
theorem twoComplementsMoveARegister : Obligations.TwoComplementsMoveARegister := by
  intro a b s
  obtain ⟨-, hnot⟩ := notComplementsTheSecondOperand
  have hb := (readReg b s).isLt
  exact exec_exec_onlyRegisterAndPc (fun n => 255 - n) (hnot a b s) (hnot a a) (by omega)

/-- Settles O29: each of LI and LUI keeps the nibble that the other sets. -/
theorem liAndLuiBuildAnyConstant : Obligations.LiAndLuiBuildAnyConstant := by
  intro lo hi s
  obtain ⟨-, hli⟩ := liReplacesTheLowNibbleOfX0
  obtain ⟨-, hlui⟩ := luiReplacesTheHighNibbleOfX0
  have hlo := lo.isLt
  exact ⟨exec_exec_onlyRegisterAndPc (fun n => hi.toNat * 16 + n % 16) (hli lo s) (hlui hi) (by omega),
    exec_exec_onlyRegisterAndPc (fun n => n / 16 * 16 + lo.toNat) (hlui hi s) (hli lo) (by omega)⟩

/-- Settles O21: adding 1 to the complement of x[b] makes its negative modulo 256, and the register that holds 1 is
changed by neither of the two instructions before. -/
theorem subtractionIsComplementAndAdd : Obligations.SubtractionIsComplementAndAdd := by
  intro a b one s hab _ hone hval
  obtain ⟨-, hnot⟩ := notComplementsTheSecondOperand
  obtain ⟨-, hadd⟩ := addWrapsModulo256
  obtain ⟨t, hst, hbt, -, hregs_t, -⟩ := hnot b b s
  obtain ⟨u, htu, hbu, -, hregs_u, -⟩ := hadd b one t
  obtain ⟨v, huv, hav, -⟩ := hadd a b u
  refine ⟨t, u, v, hst, htu, huv, ?_⟩
  have hone_t : (readReg one t).toNat = 1 := by rw [hregs_t one hone, hval]; rfl
  have ha_u : readReg a u = readReg a s := (hregs_u a hab).trans (hregs_t a hab)
  have ha := (readReg a s).isLt
  have hb := (readReg b s).isLt
  rw [hav, hbu, hone_t, hbt, ha_u]
  omega

end Sys2Proof.Machine
end

section
/-! PROOFS. The data store across steps (spec/20_memory.md sections 2 and 5, spec/10_state.md R19): what changes an
entry, that entry 255 is out of reach, and a store followed by a load. -/

namespace Sys2Proof.Machine

/-- The data store after a commit, entry by entry: a data write reaches its address alone, and not the port's (R75,
D4). -/
theorem read_commit_dmem (c : Signals) (s : State) (k : Nat) :
    Memory.read (commit c s).dmem k =
      if c.dataWrite = true ∧ c.dataAddress ≠ ioAddr ∧ k = c.dataAddress.toNat then c.dataOut
      else Memory.read s.dmem k := by
  rw [commit_dmem]
  by_cases hwrite : c.dataWrite = true ∧ c.dataAddress ≠ ioAddr
  · simp [hwrite, Memory.read_write]
  · rw [if_neg hwrite, if_neg fun ⟨hw, hram, _⟩ => hwrite ⟨hw, hram⟩]

/-- No commit reaches entry 255 (D4). -/
theorem read_commit_dmem_port (c : Signals) (s : State) :
    Memory.read (commit c s).dmem 255 = Memory.read s.dmem 255 := by
  rw [read_commit_dmem, if_neg]
  rintro ⟨-, hram, hk⟩
  exact hram ((eq_ioAddr_iff _).mpr hk.symm)

/-- Settles O38: a commit changes an entry by a data write to its address alone, and only SW drives one. -/
theorem dataStoreChangesOnlyByStore : Obligations.DataStoreChangesOnlyByStore := by
  intro s t k hst hne
  rw [eq_of_step_next hst, endCycle_dmem, read_commit_dmem] at hne ⊢
  obtain ⟨hwrite, hram, hk⟩ := of_not_not fun h => hne (if_neg h)
  obtain ⟨a, b, hsw, haddr, hout⟩ := cycleSignals_of_dataWrite hwrite
  refine ⟨fun hport => hram ((eq_ioAddr_iff _).mpr (hk.symm.trans hport)), a, b, hsw, ?_, ?_⟩
  · rw [← haddr, hk]
  · rw [if_pos ⟨hwrite, hram, hk⟩, hout]

/-! Nothing reads entry 255. -/

/-- The data bus does not answer with entry 255: at that address it answers with the input (R31, D4). -/
theorem memRead_setDmem_write_port (addr v : Byte) (s : State) :
    memRead addr (setDmem (Memory.write s.dmem 255 v) s) = memRead addr s := by
  by_cases hport : addr = ioAddr
  · rw [hport, memRead_port, memRead_port]
    rfl
  · rw [memRead_ram hport, memRead_ram hport, setDmem_dmem, Memory.read_write,
      if_neg (hport ∘ (eq_ioAddr_iff addr).mpr)]

/-- The signals of a cycle do not depend on entry 255. -/
theorem cycleSignals_setDmem_write_port (w : Byte) (d : Except Reject Instr) (v : Byte) (s : State) :
    cycleSignals w d (setDmem (Memory.write s.dmem 255 v) s) = cycleSignals w d s :=
  cycleSignals_congr w d rfl (fun r => readReg_setDmem r _ s) fun _ b _ =>
    memRead_setDmem_write_port (readReg b s) v s

/-- One commit from two states that differ in the data store alone: the results differ in the data store at most. -/
theorem setDmem_commit_setDmem (c : Signals) (m m' : Memory) (s : State) :
    setDmem m (commit c (setDmem m' s)) = setDmem m (commit c s) := by
  apply State.ext_reads <;>
    simp [commit_pc, commit_leds, commit_imem, commit_inputs, commit_cycle, readReg_commit]

/-- Settles O39: both steps commit the same signals, since no signal depends on entry 255, and no commit reaches it. -/
theorem portEntryIsNeverTouched : Obligations.PortEntryIsNeverTouched := by
  intro s v
  have hu := step_eq (setDmem (Memory.write s.dmem 255 v) s)
  rw [cycleSignals_setDmem_write_port] at hu
  refine ⟨_, _, step_eq s, hu, ?_, ?_, fun k hk => ?_, ?_⟩
  · exact read_commit_dmem_port _ s
  · rw [endCycle_dmem, read_commit_dmem_port, setDmem_dmem, Memory.read_write, if_pos rfl]
  · rw [endCycle_dmem, endCycle_dmem, read_commit_dmem, read_commit_dmem, setDmem_dmem, Memory.read_write, if_neg hk]
    rfl
  · exact congrArg endCycle (setDmem_commit_setDmem _ [] _ s)

/-! A store and the load after it. -/

/-- The state after the cycle of an SW. -/
def afterSw (a b : Reg) (s : State) : State := endCycle (commit (overrides (.sw a b) s) s)

@[simp] theorem readReg_afterSw (a b r : Reg) (s : State) : readReg r (afterSw a b s) = readReg r s :=
  (readReg_endCycle r _).trans (readReg_commit_sw a b r s)

/-- The cycle after an SW fetches the next word of the same program (R15, R18). -/
theorem fetch_afterSw (a b : Reg) (s : State) :
    fetch (afterSw a b s) = Memory.read s.imem ((s.pc.toNat + 1) % 256) := by
  rw [fetch, afterSw, endCycle_imem, commit_imem, endCycle_pc, commit_pc, ← pcPlusOne_toNat]
  rfl

/-- The latch after an SW to the port is the stored register. -/
theorem afterSw_leds_of_port {a : Reg} {s : State} (h : readReg a s = ioAddr) (b : Reg) :
    (afterSw a b s).leds = readReg b s :=
  (commit_sw_leds a b s).trans (if_pos h)

/-- The data bus answers a load at the address just stored to with the stored register, if that is not the port's. -/
theorem memRead_afterSw {a : Reg} {s : State} (h : readReg a s ≠ ioAddr) (b : Reg) :
    memRead (readReg a s) (afterSw a b s) = readReg b s := by
  rw [memRead_ram h, afterSw, endCycle_dmem, read_commit_sw_dmem, if_pos ⟨h, rfl⟩]

/-- Settles O25: LW takes what the data bus answers after the SW, `memRead_afterSw`. -/
theorem storedValueIsLoadedNextCycle : Obligations.StoredValueIsLoadedNextCycle := by
  intro s a b c hsw hlw hram
  rw [← fetch_afterSw a b] at hlw
  refine ⟨afterSw a b s, _, step_of_decode hsw, step_of_decode hlw, ?_, fun r hr => ?_⟩
  · rw [readReg_endCycle, readReg_commit_lw, readReg_afterSw, memRead_afterSw (hram ∘ (eq_ioAddr_iff _).mp)]
  · rw [readReg_endCycle, readReg_commit, if_neg fun h => hr h.2, readReg_afterSw]

/-- Settles O26: LW takes what the data bus answers at 255, the input of its own cycle, and it writes no data, so the
latch stays. -/
theorem portReadIgnoresTheLatch : Obligations.PortReadIgnoresTheLatch := by
  intro s a b c v hsw hlw hport
  rw [← fetch_afterSw a b, ← fetch_supplyInput v] at hlw
  have haddr : readReg a s = ioAddr := (eq_ioAddr_iff _).mpr hport
  refine ⟨afterSw a b s, _, step_of_decode hsw, step_of_decode hlw, afterSw_leds_of_port haddr b, ?_, ?_⟩
  · rw [endCycle_leds, (commit_noData rfl _).2, supplyInput_leds, afterSw_leds_of_port haddr]
  · rw [readReg_endCycle, readReg_commit_lw, readReg_supplyInput, readReg_afterSw, haddr, memRead_port,
      buttons_supplyInput]

end Sys2Proof.Machine
end

section
/-! PROOFS. The next PC (spec/44_control.md, spec/40_cycle.md R78): BZ, the instructions that override the increment,
and the two cycles that leave the state tuple as it is (spec/70_reset_and_hazards.md R157). -/

namespace Sys2Proof.Machine

/-- BZ's target as a number: the offset is signed, and the sum wraps in both directions (R15, R121). -/
theorem branchTarget_toNat (n : Nibble) (s : State) :
    (branchTarget n s).toNat =
      (((s.pc.toNat : Int) + 1 + (if n.toNat < 8 then (n.toNat : Int) else (n.toNat : Int) - 16)) % 256).toNat := by
  have hsimm := BitVec.toInt_eq_toNat_cond (simmValue n)
  rw [simmValue_toInt] at hsimm
  have hlt := (simmValue n).isLt
  rw [branchTarget, BitVec.toNat_add, pcPlusOne_toNat, hsimm]
  split <;> omega

/-- A byte is zero where its number is. -/
theorem byte_eq_zero_iff (x : Byte) : x = 0 ↔ x.toNat = 0 :=
  BitVec.toNat_inj.symm

/-- BZ's next PC: the target if the tested register is not zero (R121). -/
theorem bz_nextPc (a : Reg) (n : Nibble) (s : State) :
    (overrides (.bz a n) s).nextPc = if readReg a s = 0 then pcPlusOne s else branchTarget n s := by
  by_cases hzero : readReg a s = 0 <;> simp [overrides, hzero]

/-- Settles O31: BZ's signals write nothing, and the two next PCs are `pcPlusOne_toNat` and `branchTarget_toNat`. -/
theorem bzBranchesWhenNotZero : Obligations.BzBranchesWhenNotZero := by
  refine ⟨fun _ _ hcase => decodeWith_of_case hcase, fun a n s => ⟨_, exec_eq (.bz a n) s, ?_⟩⟩
  have honly := onlyPc_commit (c := overrides (.bz a n) s) rfl rfl s
  rwa [bz_nextPc, apply_ite BitVec.toNat, if_congr (byte_eq_zero_iff _) rfl rfl, pcPlusOne_toNat,
    branchTarget_toNat] at honly

/-- An instruction that overrides the incremented PC is a JR, a BZ whose tested register is not zero, a JI or a JIR
(R78). -/
theorem control_of_nextPc_ne {i : Instr} {s : State} (h : (overrides i s).nextPc ≠ pcPlusOne s) :
    (∃ a b, i = .jr a b) ∨ (∃ a n, i = .bz a n ∧ readReg a s ≠ 0) ∨ (∃ n, i = .ji n) ∨ ∃ n, i = .jir n := by
  cases i with
  | jr a b => exact .inl ⟨a, b, rfl⟩
  | bz a n => exact .inr (.inl ⟨a, n, rfl, fun hzero => h ((bz_nextPc a n s).trans (if_pos hzero))⟩)
  | ji n => exact .inr (.inr (.inl ⟨n, rfl⟩))
  | jir n => exact .inr (.inr (.inr ⟨n, rfl⟩))
  | _ => exact absurd rfl h

/-- The next PC of a step is the one its instruction drives. -/
theorem step_pc_of_decode {s t : State} {i : Instr} (hst : step s = .next t) (hi : decode (fetch s) = .ok i) :
    t.pc = (overrides i s).nextPc := by
  rw [step_of_decode hi, Host.Outcome.next.injEq] at hst
  rw [← hst, endCycle_pc, commit_pc]

/-- Settles O34: the instruction is the one the word decodes to, and `control_of_nextPc_ne` says which it can be. -/
theorem onlyControlTransfersOverrideThePc : Obligations.OnlyControlTransfersOverrideThePc := by
  intro s t hst hpc
  obtain ⟨i, hi, -⟩ := everyByteDecodes (fetch s)
  rw [step_pc_of_decode hst hi, ← pcPlusOne_toNat] at hpc
  rcases control_of_nextPc_ne fun h => hpc (congrArg BitVec.toNat h) with
    ⟨a, b, rfl⟩ | ⟨a, n, rfl, hne⟩ | ⟨n, rfl⟩ | ⟨n, rfl⟩
  · exact .inl ⟨a, b, hi⟩
  · exact .inr (.inl ⟨a, n, hi, hne ∘ (byte_eq_zero_iff _).mpr⟩)
  · exact .inr (.inr (.inl ⟨n, hi⟩))
  · exact .inr (.inr (.inr ⟨n, hi⟩))

/-! The fixed points. -/

/-- The increment always moves the PC. -/
theorem pcPlusOne_ne (s : State) : pcPlusOne s ≠ s.pc := by
  intro h
  have hnat := congrArg BitVec.toNat h
  have hlt := s.pc.isLt
  rw [pcPlusOne_toNat] at hnat
  omega

/-- A jump forward always moves the PC: it advances by 1 to 16. -/
theorem forwardTarget_ne (n : Nibble) (s : State) : forwardTarget n s ≠ s.pc := by
  intro h
  have hnat := congrArg BitVec.toNat h
  have hlt := s.pc.isLt
  have hn := n.isLt
  rw [forwardTarget_toNat] at hnat
  omega

/-- A jump backward always moves the PC: it goes back by 1 to 16. -/
theorem backwardTarget_ne (n : Nibble) (s : State) : backwardTarget n s ≠ s.pc := by
  intro h
  have hnat := congrArg BitVec.toNat h
  have hlt := s.pc.isLt
  have hn := n.isLt
  rw [backwardTarget_toNat] at hnat
  omega

/-- A branch goes to itself exactly where its offset is -1. -/
theorem branchTarget_eq_iff (n : Nibble) (s : State) : branchTarget n s = s.pc ↔ n = 15 := by
  have hlt := s.pc.isLt
  have hn := n.isLt
  have h15 : (15 : Nibble).toNat = 15 := rfl
  rw [← BitVec.toNat_inj, ← BitVec.toNat_inj, branchTarget_toNat, h15]
  split <;> omega

/-- Two states have the same tuple where the PC, every register, the data store and the latch agree (R10). -/
theorem tuple_eq_iff (s t : State) :
    t.tuple = s.tuple ↔
      t.pc = s.pc ∧ (∀ r, readReg r t = readReg r s) ∧ t.dmem = s.dmem ∧ t.leds = s.leds := by
  constructor
  · intro h
    refine ⟨congrArg Tuple.pc h, fun r => ?_, congrArg Tuple.dmem h, congrArg Tuple.leds h⟩
    cases r with
    | x0 => exact congrArg Tuple.x0 h
    | x1 => exact congrArg Tuple.x1 h
    | x2 => exact congrArg Tuple.x2 h
    | x3 => exact congrArg Tuple.x3 h
  · rintro ⟨hpc, hregs, hdmem, hleds⟩
    have h0 : t.x0 = s.x0 := hregs .x0
    have h1 : t.x1 = s.x1 := hregs .x1
    have h2 : t.x2 = s.x2 := hregs .x2
    have h3 : t.x3 = s.x3 := hregs .x3
    simp only [State.tuple, hpc, h0, h1, h2, h3, hdmem, hleds]

/-- A cycle that writes no data leaves the state tuple as it was exactly where the next PC is the PC and the register
written, if there is one, already holds the value. -/
theorem tuple_endCycle_commit_iff {c : Signals} (hdata : c.dataWrite = false) (s : State) :
    (endCycle (commit c s)).tuple = s.tuple ↔
      c.nextPc = s.pc ∧ (c.we = true → readReg c.wa s = c.wd) := by
  rw [tuple_eq_iff]
  constructor
  · rintro ⟨hpc, hregs, -, -⟩
    refine ⟨hpc, fun hwe => ?_⟩
    rw [← hregs, readReg_endCycle, readReg_commit, if_pos ⟨hwe, rfl⟩]
  · rintro ⟨hpc, hwrite⟩
    refine ⟨hpc, fun r => ?_, commit_noData hdata s⟩
    rw [readReg_endCycle, readReg_commit]
    split
    next h => rw [h.2, hwrite h.1]
    next => rfl

/-- The two instructions that can hold the machine in place, with what they need of the registers and the PC: BZ -1,
and a JR to itself whose link is in place. -/
def HoldsInPlace (i : Instr) (s : State) : Prop :=
  (∃ a, i = .bz a 15 ∧ readReg a s ≠ 0) ∨
    ∃ a b, i = .jr a b ∧ readReg b s = s.pc ∧ readReg a s = pcPlusOne s

/-- A step keeps the state tuple exactly where its instruction holds the machine in place: no other instruction keeps
the PC. -/
theorem step_tuple_iff {s t : State} {i : Instr} (hst : step s = .next t) (hi : decode (fetch s) = .ok i) :
    t.tuple = s.tuple ↔ HoldsInPlace i s := by
  obtain rfl : endCycle (commit (overrides i s) s) = t :=
    Host.Outcome.next.inj ((step_of_decode hi).symm.trans hst)
  constructor
  · intro htuple
    have hpc : (overrides i s).nextPc = s.pc := congrArg Tuple.pc htuple
    rcases control_of_nextPc_ne fun h => pcPlusOne_ne s (h.symm.trans hpc) with
      ⟨a, b, rfl⟩ | ⟨a, n, rfl, hne⟩ | ⟨n, rfl⟩ | ⟨n, rfl⟩
    · obtain ⟨-, hlink⟩ := (tuple_endCycle_commit_iff rfl s).mp htuple
      exact .inr ⟨a, b, rfl, hpc, hlink rfl⟩
    · rw [bz_nextPc, if_neg hne] at hpc
      exact .inl ⟨a, congrArg _ ((branchTarget_eq_iff n s).mp hpc), hne⟩
    · exact absurd hpc (forwardTarget_ne n s)
    · exact absurd hpc (backwardTarget_ne n s)
  · rintro (⟨a, rfl, hne⟩ | ⟨a, b, rfl, hpc, hlink⟩)
    · refine (tuple_endCycle_commit_iff rfl s).mpr ⟨?_, fun hwe => Bool.noConfusion hwe⟩
      rw [bz_nextPc, if_neg hne, branchTarget_eq_iff]
    · exact (tuple_endCycle_commit_iff rfl s).mpr ⟨hpc, fun _ => hlink⟩

/-- A word decodes to BZ -1 only as 0xDF, on register x3: that register is the one the offset names (R56, D10). -/
theorem decode_bz_minus_one_iff (w : Byte) (a : Reg) : decode w = .ok (.bz a 15) ↔ w = 0xDF ∧ a = .x3 := by
  constructor
  · intro h
    obtain ⟨hwf, hword⟩ := encodeOfDecodeIsTheWord w _ h
    exact ⟨hword.symm, of_decide_eq_true hwf⟩
  · rintro ⟨rfl, rfl⟩
    rfl

/-- The machine is held in place exactly where its instruction holds it: the input of the cycle decides nothing. -/
theorem heldInPlace_iff {s : State} {i : Instr} (hi : decode (fetch s) = .ok i) :
    HeldInPlace s ↔ HoldsInPlace i s := by
  have hinput : ∀ v, HoldsInPlace i (supplyInput v s) ↔ HoldsInPlace i s := fun v => by
    simp [HoldsInPlace, pcPlusOne]
  constructor
  · intro h
    obtain ⟨t, hst, htuple⟩ := h 0
    exact (hinput 0).mp ((step_tuple_iff hst hi).mp htuple)
  · intro h v
    have hst := step_of_decode (s := supplyInput v s) hi
    exact ⟨_, hst, (step_tuple_iff hst hi).mpr ((hinput v).mpr h)⟩

/-- A JR whose link is in place and whose target is the PC has two different registers: the link is not the PC. -/
theorem ne_of_link_of_target {a b : Reg} {s : State} (htarget : readReg b s = s.pc)
    (hlink : readReg a s = pcPlusOne s) : a ≠ b := by
  rintro rfl
  exact pcPlusOne_ne s (hlink.symm.trans htarget)

/-- Settles O41: `heldInPlace_iff`, with BZ -1 read as its one word and the link as a number. -/
theorem theOnlyFixedPoints : Obligations.TheOnlyFixedPoints := by
  intro s
  obtain ⟨i, hi, -⟩ := everyByteDecodes (fetch s)
  rw [heldInPlace_iff hi]
  constructor
  · rintro (⟨a, rfl, hne⟩ | ⟨a, b, rfl, htarget, hlink⟩)
    · obtain ⟨hword, rfl⟩ := (decode_bz_minus_one_iff _ a).mp hi
      exact .inl ⟨hword, hne⟩
    · refine .inr ⟨a, b, hi, ne_of_link_of_target htarget hlink, htarget, ?_⟩
      rw [hlink, pcPlusOne_toNat]
  · rintro (⟨hword, hne⟩ | ⟨a, b, hjr, -, htarget, hlink⟩)
    · have hbz := (decode_bz_minus_one_iff _ .x3).mpr ⟨hword, rfl⟩
      exact .inl ⟨.x3, Except.ok.inj (hi.symm.trans hbz), hne⟩
    · rw [← pcPlusOne_toNat] at hlink
      exact .inr ⟨a, b, Except.ok.inj (hi.symm.trans hjr), htarget, BitVec.eq_of_toNat_eq hlink⟩

end Sys2Proof.Machine
end

section
/-! PROOFS. The whole-step pseudocode (spec/40_cycle.md R76 to R80): each component over numbers computes what the
signals of the decoded instruction carry, and the datapath commits these signals. -/

namespace Sys2Proof.Machine

/-! The register file and the data bus over numbers. -/

theorem regAt_regBits (r : Reg) (s : State) : regAt (regBits r).toNat s = (readReg r s).toNat := by
  cases r <;> rfl

theorem putRegAt_regBits (r : Reg) (v : Nat) (s : State) :
    putRegAt (regBits r).toNat v s = writeReg r (BitVec.ofNat 8 v) s := by
  cases r <;> rfl

/-- A byte is the byte of its number. -/
theorem ofNat_toNat_byte (x : Byte) : BitVec.ofNat 8 x.toNat = x := by
  rw [BitVec.ofNat_toNat, BitVec.setWidth_eq]

theorem busRead_toNat (addr : Byte) (s : State) : busRead addr.toNat s = (memRead addr s).toNat := by
  rw [memRead_toNat, busRead]

theorem busWrite_toNat (addr v : Byte) (s : State) : busWrite addr.toNat v.toNat s = memWrite addr v s := by
  rw [busWrite, memWrite, ofNat_toNat_byte, if_congr (eq_ioAddr_iff addr).symm rfl rfl]
  rfl

/-! The signals of an operation on a word's fields, component by component. -/

/-- The register index at the write port and the first read port: x0 for LI and LUI, else the word's field `a` (R55). -/
theorem overrides_wa (op : Opcode) (w : Byte) (s : State) :
    (regBits (overrides (operandsOf op w) s).wa).toNat =
      if (opcodeValue op).toNat = 10 ∨ (opcodeValue op).toNat = 11 then 0 else (regBits (aField w)).toNat := by
  cases op with
  | ji | jir => rw [aField_eq_immReg]; rfl
  | _ => rfl

/-- The register write-enable (R79). -/
theorem overrides_we (op : Opcode) (w : Byte) (s : State) :
    (overrides (operandsOf op w) s).we = writeEnable (opcodeValue op).toNat := by
  cases op <;> rfl

/-- LI's merge on numbers, bit by bit (R79). -/
theorem mergeLow_toNat_bits (x : Byte) (n : Nibble) : (mergeLow x n).toNat = (x.toNat &&& 0xF0) ||| n.toNat := by
  rw [mergeLow, BitVec.toNat_or, BitVec.toNat_and, immValue_toNat]
  rfl

/-- LUI's merge on numbers, bit by bit: the shifted immediate still fits the byte (R79). -/
theorem mergeHigh_toNat_bits (x : Byte) (n : Nibble) :
    (mergeHigh x n).toNat = (x.toNat &&& 0x0F) ||| (n.toNat <<< 4) := by
  have hfits : n.toNat <<< 4 % 2 ^ 8 = n.toNat <<< 4 := by
    have hn := n.isLt
    rw [Nat.shiftLeft_eq]
    omega
  rw [mergeHigh, BitVec.toNat_or, BitVec.toNat_and, BitVec.toNat_shiftLeft, immValue_toNat, hfits]
  rfl

/-- The write-back value is the write-back multiplexer's (R77, R79). -/
theorem overrides_wd (op : Opcode) (w : Byte) (s : State) :
    (overrides (operandsOf op w) s).wd.toNat =
      writeBackMux (writeBackSelect (opcodeValue op).toNat) (opcodeValue op).toNat s.pc.toNat
        (readReg (overrides (operandsOf op w) s).wa s).toNat (readReg (bField w) s).toNat (immField w).toNat
        (memRead (readReg (bField w) s) s).toNat := by
  cases op with
  | sl => exact aluSl_toNat _ _
  | sr => exact aluSr_toNat _ _
  | not => exact BitVec.toNat_not
  | and => exact BitVec.toNat_and _ _
  | or => exact BitVec.toNat_or _ _
  | xor => exact BitVec.toNat_xor _ _
  | add => exact BitVec.toNat_add _ _
  | slt => exact lessUnsigned_toNat _ _
  | li => exact mergeLow_toNat_bits _ _
  | lui => exact mergeHigh_toNat_bits _ _
  | jr => exact pcPlusOne_toNat s
  | lw | sw | bz | ji | jir => rfl

/-- The next PC is the next-PC multiplexer's (R78). -/
theorem overrides_nextPc (op : Opcode) (w : Byte) (s : State) :
    (overrides (operandsOf op w) s).nextPc.toNat =
      nextPcMux (nextPcSelect (opcodeValue op).toNat (readReg (overrides (operandsOf op w) s).wa s).toNat)
        s.pc.toNat (readReg (bField w) s).toNat (immField w).toNat (simmValue (immField w)).toInt := by
  cases op with
  | jr => rfl
  | bz =>
    have hsel : nextPcSelect (opcodeValue .bz).toNat (readReg (aField w) s).toNat =
        if readReg (aField w) s = 0 then .increment else .branch := by
      rw [if_congr (byte_eq_zero_iff _) rfl rfl, ← ite_not]
      rfl
    refine (congrArg BitVec.toNat (bz_nextPc _ _ _)).trans (Eq.trans ?_ (congrArg (nextPcMux · _ _ _ _) hsel.symm))
    rw [simmValue_toInt]
    split
    · exact pcPlusOne_toNat s
    · exact branchTarget_toNat _ s
  | ji => exact forwardTarget_toNat _ s
  | jir => exact backwardTarget_toNat _ s
  | _ => exact pcPlusOne_toNat s

/-- The data bus at the cycle boundary: SW alone drives it, with its two registers (R80). -/
theorem commitData_overrides (op : Opcode) (w : Byte) (s t : State) :
    commitData (overrides (operandsOf op w) s) t =
      if (opcodeValue op).toNat = 9 then
        memWrite (readReg (overrides (operandsOf op w) s).wa s) (readReg (bField w) s) t
      else t := by
  cases op <;> rfl

/-- The datapath commits the signals of the operation that the fetched word's opcode value selects (R76). -/
theorem datapathStep_eq {op : Opcode} {s : State} (h : opcodeValue op = opcodeField (fetch s)) :
    datapathStep s = commit (overrides (operandsOf op (fetch s)) s) s := by
  have hword : (Memory.read s.imem s.pc.toNat).toNat = (fetch s).toNat := rfl
  -- the slices of the word's number are the decoder's fields
  simp only [datapathStep, hword, ← opcodeField_toNat, ← regBits_aField_toNat, ← regBits_bField_toNat,
    ← immField_toNat, ← simmValue_toInt, ← h]
  -- the components over these numbers are the signals
  simp only [← overrides_wa op (fetch s) s, regAt_regBits, busRead_toNat, ← overrides_wd, ← overrides_nextPc,
    putRegAt_regBits, ofNat_toNat_byte, busWrite_toNat]
  rw [commit, commitData_overrides, commitReg, overrides_we]
  rfl

/-- Settles O12: the step commits the same signals, those of the instruction the word decodes to. -/
theorem stepIsTheWholeStepPseudocode : Obligations.StepIsTheWholeStepPseudocode := by
  intro s
  obtain ⟨op, hval, hop⟩ := exists_operandsOf_of_decode (fetch s)
  rw [step_of_decode hop, datapathStep_eq hval]

end Sys2Proof.Machine
end
